-- ==== Sys2Proof/Word.lean ====
section
/-! DEFINITION. The two word types of the block (spec 00_scope.md R8, R10): the 8-bit byte and the
32-bit word. Arithmetic on `BitVec 32` wraps modulo 2^32, which is what R11 and R72 ask for. -/

namespace Sys2Proof

/-- R10's `u8`: 0..255, unsigned. -/
abbrev Byte := BitVec 8

/-- R10's `u32`: 0..2^32-1, unsigned, arithmetic modulo 2^32 (R11, R72). -/
abbrev Word := BitVec 32

end Sys2Proof
end

