-- ==== Sys2Proof/Config.lean ====
section
/-! DEFINITION. What an implementation fixes (spec 00_scope.md R8, 10_state.md R37): the three named
parameters, each with the spec's default, and the two OPEN platform addresses, which are free
values: nothing in Lean can evaluate them. The value the machine runs with is
`Sys2Proof.Machine.params` (Machine/Params.lean). -/

namespace Sys2Proof

/-- Parameter M2_TAIL3 (R8, R82, D18): one or two multiplies on a 3-byte MurmurHash2 tail. -/
inductive M2Tail3 where
  | double
  | single
  deriving DecidableEq, Repr

/-- Parameter M3_H1_INIT (R8, R91, D19): what MurmurHash3's `h1` starts at. -/
inductive M3H1Init where
  | zero
  | seed
  deriving DecidableEq, Repr

/-- Parameter ROTL_OOB (R8, R74, D17): ROTL32 with a count outside 1..31 masks it, or faults. -/
inductive RotlOob where
  | mask
  | fault
  deriving DecidableEq, Repr

/-- The parameters of R8 that have a default. They are configuration, not state (R37). -/
structure Params where
  m2Tail3 : M2Tail3
  m3H1Init : M3H1Init
  rotlOob : RotlOob
  deriving DecidableEq, Repr

/-- The defaults of R8's table. -/
def Params.default : Params :=
  { m2Tail3 := .double, m3H1Init := .zero, rotlOob := .mask }

/-- REG_BASE (R8, R47, D2): the host address of the register window. OPEN: a free value (log 3). -/
opaque Config.regBase : Nat

/-- BUF_BASE (R8, R49, D23): the host address of the input buffer, if it is mapped. OPEN: a free
value (log 3). -/
opaque Config.bufBase : Option Nat

end Sys2Proof
end

