-- ==== Sys2Proof/Syntax.lean ====
section
/-! DEFINITION. The nine commands of the block, one constructor per row of spec/opcode_table.json
(spec 30_encoding.md R58, R64, R67). A command has no register operand: its operand registers are
fixed (R66). -/

namespace Sys2Proof

/-- One command. `.S` of the spec's mnemonics (SEEDSEL = 1, R59) is the suffix `S` here. `comb n absent`
carries the arity as R67 writes it (N itself, not NM1) and the 8-bit ABSENT mask (R61). -/
inductive Instr where
  /-- ROTL32, R74. -/
  | rotl32
  /-- MIX2, R76. -/
  | mix2
  /-- MIX3, R78. -/
  | mix3
  /-- M2H, R84. -/
  | m2h
  /-- M2H.S, R85. -/
  | m2hS
  /-- M3H, R92. -/
  | m3h
  /-- M3H.S, R93. -/
  | m3hS
  /-- COMB n, absent=m, R105. -/
  | comb (n : Nat) (absent : BitVec 8)
  /-- COMB.S n, absent=m, R106. -/
  | combS (n : Nat) (absent : BitVec 8)
  deriving DecidableEq, Repr

end Sys2Proof
end

