-- ==== Sys2Proof/WellFormed.lean ====
section
/-! DEFINITION. Which terms of `Instr` are commands of the block: the combiner's arity is 1..8 (spec
30_encoding.md R60, R67). Every other operand is well formed by its type. -/

namespace Sys2Proof

/-- R60: "N is 1 to 8, every value legal"; no other arity can be encoded. -/
def arityOk (n : Nat) : Bool := decide (1 ≤ n) && decide (n ≤ 8)

/-- The commands the block has: R65's nine forms, COMB and COMB.S with an arity of R60. -/
def Instr.wellFormed : Instr → Bool
  | .rotl32 => true
  | .mix2 => true
  | .mix3 => true
  | .m2h => true
  | .m2hS => true
  | .m3h => true
  | .m3hS => true
  | .comb n _ => arityOk n
  | .combS n _ => arityOk n

end Sys2Proof
end

