-- ==== Sys2Proof/Decode.lean ====
section
/-! DEFINITION. The CMD32 decoder of spec 30_encoding.md R65, total on every 32-bit word, and the
encoder written from R57's field table and R58's OP values. -/

namespace Sys2Proof

/-! ## Fields (R57) -/

/-- OP, bits [3:0]. -/
def opField (w : Word) : BitVec 4 := w.extractLsb' 0 4

/-- SEEDSEL, bit 4. -/
def seedselField (w : Word) : Bool := w.getLsbD 4

/-- NM1, bits [10:8]. -/
def nm1Field (w : Word) : BitVec 3 := w.extractLsb' 8 3

/-- ABSENT, bits [23:16]. -/
def absentField (w : Word) : BitVec 8 := w.extractLsb' 16 8

/-- R62: a reserved bit of [7:5], [15:11] or [31:24] is set. -/
def reservedSet (w : Word) : Bool :=
  w.extractLsb' 5 3 != 0#3 || w.extractLsb' 11 5 != 0#5 || w.extractLsb' 24 8 != 0#8

/-- R62: NM1 or ABSENT is set, which only COMB and COMB.S allow. -/
def combFieldSet (w : Word) : Bool := nm1Field w != 0#3 || absentField w != 0#8

/-! ## Decoding (R65) -/

/-- Why a word is illegal (R62, R63). The hardware reports all of them as IllegalCommand (R110). -/
inductive IllegalReason where
  /-- A bit of [7:5], [15:11] or [31:24] is set. -/
  | reservedBitSet
  /-- SEEDSEL, NM1 or ABSENT is set and the OP does not use it. -/
  | unusedFieldSet
  /-- OP is 0x0 or 0x7..0xF. -/
  | illegalOp
  deriving DecidableEq, Repr

/-- What R65's `decode` returns: one of the nine forms, or Illegal. -/
inductive Decoded where
  | command (i : Instr)
  | illegal (why : IllegalReason)
  deriving DecidableEq, Repr

/-- OP 0x1 to 0x3: SEEDSEL, NM1 and ABSENT must be 0. -/
def decodePrimitive (w : Word) (i : Instr) : Decoded :=
  if seedselField w || combFieldSet w then .illegal .unusedFieldSet else .command i

/-- OP 0x4 and 0x5: NM1 and ABSENT must be 0, SEEDSEL picks the form. -/
def decodeHash (w : Word) (plain seeded : Instr) : Decoded :=
  if combFieldSet w then .illegal .unusedFieldSet
  else .command (if seedselField w then seeded else plain)

/-- OP 0x6: N = NM1 + 1, ABSENT as it stands, SEEDSEL picks the form. -/
def decodeComb (w : Word) : Instr :=
  if seedselField w then .combS ((nm1Field w).toNat + 1) (absentField w)
  else .comb ((nm1Field w).toNat + 1) (absentField w)

/-- R65's `decode`. -/
def decode (w : Word) : Decoded :=
  if reservedSet w then .illegal .reservedBitSet
  else
    match (opField w).toNat with
    | 1 => decodePrimitive w .rotl32
    | 2 => decodePrimitive w .mix2
    | 3 => decodePrimitive w .mix3
    | 4 => decodeHash w .m2h .m2hS
    | 5 => decodeHash w .m3h .m3hS
    | 6 => .command (decodeComb w)
    | _ => .illegal .illegalOp

/-! ## Encoding (R57, R58, R67) -/

/-- A CMD32 word from its fields: the pattern of R57, every reserved bit 0. -/
def cmd32 (op : BitVec 4) (seedsel : Bool) (nm1 : BitVec 3) (absent : BitVec 8) : Word :=
  op.setWidth 32 ||| ((BitVec.ofBool seedsel).setWidth 32 <<< 4) ||| (nm1.setWidth 32 <<< 8)
    ||| (absent.setWidth 32 <<< 16)

/-- The word of a command: R58's OP and SEEDSEL, and for COMB NM1 = n - 1 (R67). DESIGN CHOICE (log 13): a
COMB or COMB.S term with n outside 1..8 has no word (R60, I11), and this total function gives it NM1 =
(n - 1) mod 8, n = 0 taken as 1; `hostCmd` and `assemble` never use that word. -/
def encode : Instr → Word
  | .rotl32 => cmd32 1 false 0 0
  | .mix2 => cmd32 2 false 0 0
  | .mix3 => cmd32 3 false 0 0
  | .m2h => cmd32 4 false 0 0
  | .m2hS => cmd32 4 true 0 0
  | .m3h => cmd32 5 false 0 0
  | .m3hS => cmd32 5 true 0 0
  | .comb n absent => cmd32 6 false (BitVec.ofNat 3 (n - 1)) absent
  | .combS n absent => cmd32 6 true (BitVec.ofNat 3 (n - 1)) absent

/-! ## The rows of spec/opcode_table.json (R65) -/

/-- One row: a word `w` is an instruction of the row when `w &&& mask = pattern`. -/
structure OpcodeRow where
  mnemonic : String
  mask : Word
  pattern : Word
  deriving DecidableEq, Repr

/-- The row of a command. -/
def Instr.row : Instr → OpcodeRow
  | .rotl32 => { mnemonic := "ROTL32", mask := 0xFFFFFFFF#32, pattern := 0x00000001#32 }
  | .mix2 => { mnemonic := "MIX2", mask := 0xFFFFFFFF#32, pattern := 0x00000002#32 }
  | .mix3 => { mnemonic := "MIX3", mask := 0xFFFFFFFF#32, pattern := 0x00000003#32 }
  | .m2h => { mnemonic := "M2H", mask := 0xFFFFFFFF#32, pattern := 0x00000004#32 }
  | .m2hS => { mnemonic := "M2H.S", mask := 0xFFFFFFFF#32, pattern := 0x00000014#32 }
  | .m3h => { mnemonic := "M3H", mask := 0xFFFFFFFF#32, pattern := 0x00000005#32 }
  | .m3hS => { mnemonic := "M3H.S", mask := 0xFFFFFFFF#32, pattern := 0x00000015#32 }
  | .comb _ _ => { mnemonic := "COMB", mask := 0xFF00F8FF#32, pattern := 0x00000006#32 }
  | .combS _ _ => { mnemonic := "COMB.S", mask := 0xFF00F8FF#32, pattern := 0x00000016#32 }

/-- The nine rows, in the table's order. -/
def opcodeTable : List OpcodeRow :=
  [Instr.row .rotl32, Instr.row .mix2, Instr.row .mix3, Instr.row .m2h, Instr.row .m2hS,
    Instr.row .m3h, Instr.row .m3hS, Instr.row (.comb 1 0), Instr.row (.combS 1 0)]

/-! ## The host's view of a table row -/

/-- The first `nbits` bits of `w` as the one 32-bit word of a command (R56: CMD32 is the only length
and format); every bit above `nbits` is 0. -/
def tableWord (nbits w : Nat) : Word := BitVec.ofNat 32 (w % 2 ^ nbits)

/-- The command this decoder reads from the instruction whose bits are `w`, numbered as
spec/opcode_table.json numbers them; nothing longer than one 32-bit word is a command (R56). -/
def decodeTableWord (nbits w : Nat) : Option Instr :=
  if nbits ≤ 32 then
    match decode (tableWord nbits w) with
    | .command i => some i
    | .illegal _ => none
  else none

end Sys2Proof
end

