-- ==== Sys2Proof/Machine/State.lean ====
section
/-! DEFINITION. The machine's state (spec 10_state.md R19: the register file and BUF, and nothing else
that persists), the host accesses it is driven by, and the reasons a step can stop. -/

namespace Sys2Proof.Machine

/-- A register of R20's table, under its name. -/
inductive Reg where
  | cmd
  | status
  | result
  | opa
  | opb
  | seed
  | bufCtrl
  | bufLen
  /-- HC0..HC7, registers 8..15 (R29). -/
  | hc (k : Fin 8)
  deriving DecidableEq, Repr

/-- One host access to the block. The first four act on the block itself (R14, R21, R49, R123 and the
notation of R68); the last two are raw bus accesses by host address, which R47 and R48 map to a
register or turn away. -/
inductive HostAccess where
  /-- An aligned 32-bit read of a register (`rd REG`). -/
  | read (r : Reg)
  /-- An aligned 32-bit write of a register (`wr REG, w`); on CMD it runs a command (R21). -/
  | write (r : Reg) (w : Word)
  /-- `MemWrite(off, 1, b)`, R49. -/
  | writeByte (off : Word) (b : Byte)
  /-- The reset input, which acts between host accesses (R123). -/
  | reset
  /-- A bus read of `width` bytes at a host address. -/
  | busRead (addr width : Nat)
  /-- A bus write at a host address; the bytes are listed lowest address first (R48's lanes). -/
  | busWrite (addr : Nat) (bytes : List Byte)
  deriving DecidableEq, Repr

/-- BUF (R38) as the list of the bytes the host has written since reset, addresses strictly rising. An
unlisted byte has no value (R46, R125). -/
abbrev Memory := List Host.Cell

/-- The register file x[0..15] (R20), BUF (R35), and the model's own host side: the accesses still to
be performed, oldest first, and the values the host's reads have returned, oldest first (log 1). -/
structure State where
  cmd : Word
  status : Word
  result : Word
  opa : Word
  opb : Word
  seed : Word
  bufCtrl : Word
  bufLen : Word
  hc : Vector Word 8
  buf : Memory
  pending : List HostAccess
  replies : List Word
  deriving DecidableEq, Repr

/-- The faults of the model: each is one the spec itself asks a model for. -/
inductive Fault where
  /-- A hash command with VALID = 1 would read a BUF byte the host has not written since reset (R46,
  I4). Raised by M2H, M2H.S, M3H and M3H.S. Safe: no claim can rest on such a byte. -/
  | bufByteUnwritten
  /-- ROTL32 with a count outside 1..31 under ROTL_OOB = fault (R74, I1). Raised by ROTL32, and never
  under the default ROTL_OOB = mask. Safe. -/
  | rotateCountOutOfRange
  /-- A host read of STATUS or BUF_CTRL that would show a reserved bit set or an ECODE of 3..15 (I9).
  Raised by host reads, in states no run reaches. Safe. -/
  | reservedBitsSeen
  deriving DecidableEq, Repr

/-- The refusals of the model: accesses and terms to which the spec gives no meaning. -/
inductive Refusal where
  /-- A command whose meaning is not written. No arm of `exec` raises it. Safe. -/
  | notModelled (mnemonic : String)
  /-- COMB or COMB.S with an arity outside 1..8, which no word encodes (R60, I11). Safe. -/
  | combArityOutOfRange
  /-- A bus access outside the register window and outside a mapped BUF (R47, I7). Safe. -/
  | outsideWindow
  /-- A bus access in the register window that is not one aligned 32-bit register (R48, I7). Safe. -/
  | notAligned32
  /-- A bus access to a mapped BUF that is not a one-byte write (R35, R49). Safe. -/
  | bufNotByteWrite
  /-- A bus address that lies both in the register window and in a mapped BUF (log 3). Safe. -/
  | addressAmbiguous
  deriving DecidableEq, Repr

/-- The machine right after reset (R123, and per register R20 to R29): every register 0, so VALID = 0
and STATUS says that no command has completed; no BUF byte written (R125); nothing asked of it yet. -/
def State.reset : State :=
  { cmd := 0, status := 0, result := 0, opa := 0, opb := 0, seed := 0, bufCtrl := 0, bufLen := 0,
    hc := Vector.replicate 8 0, buf := [], pending := [], replies := [] }

end Sys2Proof.Machine
end

