-- ==== Sys2Proof/Machine/Flags.lean ====
section
/-! DEFINITION. The STATUS register: its fields (spec 10_state.md R22), what a completion does to them
(60_exceptions.md R108, R112, R113) and what a host write does (R122). -/

namespace Sys2Proof.Machine

/-! ## Fields (R22) -/

/-- DONE, bit 0. -/
def statusDone (st : Word) : Bool := st.getLsbD 0

/-- ERR, bit 1. -/
def statusErr (st : Word) : Bool := st.getLsbD 1

/-- ERRSEEN, bit 2. -/
def statusErrSeen (st : Word) : Bool := st.getLsbD 2

/-- ECODE, bits [7:4]. -/
def statusEcode (st : Word) : BitVec 4 := st.extractLsb' 4 4

/-- R22: the reserved bits 3 and [31:8]. -/
def statusReserved (st : Word) : Word := st &&& 0xFFFFFF08#32

/-! ## Completion -/

/-- The two error kinds of R108. -/
inductive ErrorKind where
  | nullInput
  | illegalCommand
  deriving DecidableEq, Repr

/-- R108: the ECODE of an error kind. -/
def ErrorKind.ecode : ErrorKind → BitVec 4
  | .nullInput => 1#4
  | .illegalCommand => 2#4

/-- R113: DONE <- 1, ERR <- 0, ECODE <- 0; ERRSEEN and the reserved bits as they were. -/
def statusOnSuccess (st : Word) : Word := (st &&& 0xFFFFFF0C#32) ||| 1#32

/-- R112: DONE <- 1, ERR <- 1, ERRSEEN <- 1, ECODE <- e; the reserved bits as they were. -/
def statusOnError (e : ErrorKind) (st : Word) : Word :=
  (st &&& 0xFFFFFF08#32) ||| 7#32 ||| (e.ecode.setWidth 32 <<< 4)

/-- R122: bit 2 of the written word clears ERRSEEN; every other bit of it is ignored. -/
def statusOnWrite (w st : Word) : Word := if w.getLsbD 2 then st &&& 0xFFFFFFFB#32 else st

end Sys2Proof.Machine
end

