-- ==== Sys2Proof/Machine/Ops.lean ====
section
/-! DEFINITION. The shared operations: BUF (spec 20_memory.md R38, R46, R49), the register file
(10_state.md R20 to R31), and the completion of a command, with or without an error
(60_exceptions.md R112, R113). -/

namespace Sys2Proof.Machine

/-! ## BUF -/

/-- The byte at an offset of BUF; none when the host has not written it since reset (R46, R125). -/
def Memory.read : Memory → Nat → Option Byte
  | [], _ => none
  | (k, v) :: rest, a => if a = k then some v else Memory.read rest a

/-- `BUF[a] <- b` (R49), keeping the list in rising order of address. -/
def Memory.write : Memory → Nat → Byte → Memory
  | [], a, b => [(a, b)]
  | (k, v) :: rest, a, b =>
    if a < k then (a, b) :: (k, v) :: rest
    else if a = k then (a, b) :: rest
    else (k, v) :: Memory.write rest a b

/-- The canonical form: offsets strictly rising and inside BUF's 2^32 bytes (R38). -/
abbrev Memory.wf (m : Memory) : Prop :=
  m.Pairwise (fun c d => c.1 < d.1) ∧ ∀ c ∈ m, c.1 < 4294967296

/-- The `n` bytes from offset `a` on, in ascending order (R44); none when one of them is unwritten. -/
def Memory.readBytes (m : Memory) : (a n : Nat) → Option (List Byte)
  | _, 0 => some []
  | a, n + 1 =>
    match m.read a with
    | none => none
    | some b => (Memory.readBytes m (a + 1) n).map (b :: ·)

/-! ## The register file -/

/-- R20: the index of a register. -/
def Reg.index : Reg → Nat
  | .cmd => 0
  | .status => 1
  | .result => 2
  | .opa => 3
  | .opb => 4
  | .seed => 5
  | .bufCtrl => 6
  | .bufLen => 7
  | .hc k => 8 + k.val

/-- R20: the register of an index. -/
def Reg.ofIndex (i : Fin 16) : Reg :=
  if i.val = 0 then .cmd
  else if i.val = 1 then .status
  else if i.val = 2 then .result
  else if i.val = 3 then .opa
  else if i.val = 4 then .opb
  else if i.val = 5 then .seed
  else if i.val = 6 then .bufCtrl
  else if i.val = 7 then .bufLen
  else .hc (Fin.ofNat 8 (i.val - 8))

/-- `x[r]` as the host reads it (R20). -/
def readReg (s : State) : Reg → Word
  | .cmd => s.cmd
  | .status => s.status
  | .result => s.result
  | .opa => s.opa
  | .opb => s.opb
  | .seed => s.seed
  | .bufCtrl => s.bufCtrl
  | .bufLen => s.bufLen
  | .hc k => s.hc[k]

/-- What a host write stores, by R20's access types: RESULT ignores it (R23), STATUS is W1C in bit 2
(R122), BUF_CTRL keeps bit 0 only (R27), every other register takes the word. A write to CMD stores
here and then runs a command (`hostWrite`, R21). -/
def writeReg (r : Reg) (w : Word) (s : State) : State :=
  match r with
  | .cmd => { s with cmd := w }
  | .status => { s with status := statusOnWrite w s.status }
  | .result => s
  | .opa => { s with opa := w }
  | .opb => { s with opb := w }
  | .seed => { s with seed := w }
  | .bufCtrl => { s with bufCtrl := w &&& 1#32 }
  | .bufLen => { s with bufLen := w }
  | .hc k => { s with hc := s.hc.set k w }

/-- `MemWrite(off, 1, b)` (R49). -/
def writeBuf (off : Word) (b : Byte) (s : State) : State :=
  { s with buf := s.buf.write off.toNat b }

/-! ## Completion of a command -/

/-- R113: a command completes with value `v`. -/
def succeed (v : Word) (s : State) : State :=
  { s with result := v, status := statusOnSuccess s.status }

/-- R112, `raise E` of R16: a command ends with error `e`. RESULT, the operand registers and BUF stay as
they were. There is no return from it (R116): the next CMD write runs normally, and only the STATUS
write of R122 or reset clears ERRSEEN. -/
def raise (e : ErrorKind) (s : State) : State :=
  { s with status := statusOnError e s.status }

/-- R123, R125: every register to its reset value; no byte of BUF counts as written any more. The
host's own side (what it still asks, what it has read) is not the block's. -/
def resetBlock (s : State) : State :=
  { State.reset with pending := s.pending, replies := s.replies }

end Sys2Proof.Machine
end

