-- ==== Sys2Proof/Machine/Operands.lean ====
section
/-! DEFINITION. What a command reads (spec 30_encoding.md R66): the input buffer (20_memory.md R38, R39,
R45, R46), the component hashes (43_combiner.md R97) and the byte order both the buffer and the bus
use (R15, R39, R48). -/

namespace Sys2Proof.Machine

/-- R10's `zext_32`: no byte is ever sign-extended. -/
def zext32 (b : Byte) : Word := b.setWidth 32

/-- R15: bytes assembled little-endian, the first at bits [7:0]. -/
def littleEndian : List Byte → Word
  | [] => 0#32
  | b :: rest => zext32 b ||| (littleEndian rest <<< 8)

/-- BUF_CTRL.VALID, bit 0 (R27). -/
def bufValid (s : State) : Bool := s.bufCtrl.getLsbD 0

/-- The input of a hash command (R38). -/
inductive Input where
  /-- VALID = 0: null/absent. -/
  | absent
  /-- VALID = 1 and a byte at an offset below BUF_LEN is unwritten since reset (R46). -/
  | unwritten
  /-- VALID = 1: the bytes BUF[0..BUF_LEN-1]. -/
  | present (data : List Byte)
  deriving DecidableEq, Repr

/-- R38, R45: with VALID = 0 neither BUF nor BUF_LEN is read. -/
def inputBuffer (s : State) : Input :=
  if bufValid s then
    match s.buf.readBytes 0 s.bufLen.toNat with
    | none => .unwritten
    | some data => .present data
  else .absent

/-- R97: the component hash of argument k+1, 0 where ABSENT[k] is 1, whatever HCk holds. -/
def componentHash (s : State) (absent : BitVec 8) (k : Fin 8) : Word :=
  if absent.getLsbD k.val then 0#32 else s.hc[k]

end Sys2Proof.Machine
end

