-- ==== Sys2Proof/Machine/Params.lean ====
section
/-! DEFINITION. The parameter values this machine runs with (spec 00_scope.md R8: the defaults). -/

namespace Sys2Proof.Machine

/-- R8's defaults: M2_TAIL3 = double, M3_H1_INIT = zero, ROTL_OOB = mask (log 2). -/
def params : Params := Params.default

end Sys2Proof.Machine
end

