-- ==== Sys2Proof/Machine/Primitives.lean ====
section
/-! DEFINITION. The bit primitives (spec 40_primitives.md): rotl32 and the two finalisers, and the
commands ROTL32, MIX2 and MIX3. -/

namespace Sys2Proof.Machine

/-- R73: rotate left, the count masked to 5 bits. -/
def rotl32 (x c : Word) : Word :=
  let n := (c &&& 31#32).toNat
  (x <<< n) ||| (x >>> ((32 - n) % 32))

/-- R75. -/
def mixFinalMurmur2 (h : Word) : Word :=
  let h := h ^^^ (h >>> 13)
  let h := h * 0x5bd1e995#32
  h ^^^ (h >>> 15)

/-- R77. -/
def mixFinalMurmur3 (h : Word) : Word :=
  let h := (h ^^^ (h >>> 16)) * 0x85ebca6b#32
  let h := (h ^^^ (h >>> 13)) * 0xc2b2ae35#32
  h ^^^ (h >>> 16)

/-- The rotate count is one the document gives a meaning: 1..31 (R73, I1). -/
def rotateCountInRange (c : Word) : Bool := decide (1 ≤ c.toNat) && decide (c.toNat ≤ 31)

/-- R74 under either value of ROTL_OOB: masked counts, or a fault outside 1..31. -/
def rotateCommand (oob : RotlOob) (s : State) : Host.Outcome State Fault Refusal :=
  match oob with
  | .mask => .next (succeed (rotl32 s.opa s.opb) s)
  | .fault =>
    if rotateCountInRange s.opb then .next (succeed (rotl32 s.opa s.opb) s)
    else .fault .rotateCountOutOfRange

/-- ROTL32, R74. -/
def execRotl32 (s : State) : Host.Outcome State Fault Refusal := rotateCommand params.rotlOob s

/-- MIX2, R76. -/
def execMix2 (s : State) : Host.Outcome State Fault Refusal :=
  .next (succeed (mixFinalMurmur2 s.opa) s)

/-- MIX3, R78. -/
def execMix3 (s : State) : Host.Outcome State Fault Refusal :=
  .next (succeed (mixFinalMurmur3 s.opa) s)

end Sys2Proof.Machine
end

