-- ==== Sys2Proof/Machine/Combiner.lean ====
section
/-! DEFINITION. The hash combiner (spec 43_combiner.md) and the commands COMB and COMB.S. The component
hash `hc(k+1)` of the spec is `hc k` here, with k in 0..7 as in R61. -/

namespace Sys2Proof.Machine

/-! ## Constants (R96; the decimal Prime5, 90_conflicts.md C1) -/

def prime1 : Word := 0x9E3779B1#32
def prime2 : Word := 0x85EBCA77#32
def prime3 : Word := 0xC2B2AE3D#32
def prime4 : Word := 0x27D4EB2F#32
def prime5 : Word := 0x165667B1#32

/-- COMB_DEFAULT_SEED (R8, R59). -/
def combDefaultSeed : Word := 0#32

/-! ## Helper functions -/

/-- R98. -/
def queueRound (hash hc : Word) : Word := rotl32 (hash + hc * prime3) 17#32 * prime4

/-- R99's `round`. -/
def laneRound (v hc : Word) : Word := rotl32 (v + hc * prime2) 13#32 * prime1

/-- The accumulators v1..v4, called lanes (R17). -/
structure Lanes where
  v1 : Word
  v2 : Word
  v3 : Word
  v4 : Word
  deriving DecidableEq, Repr

/-- R103: the lanes initialised from the seed. -/
def lanesInit (seed : Word) : Lanes :=
  { v1 := seed + prime1 + prime2, v2 := seed + prime2, v3 := seed, v4 := seed - prime1 }

/-- One pass over four component hashes, one a lane (R103, R104). -/
def lanesPass (l : Lanes) (h1 h2 h3 h4 : Word) : Lanes :=
  { v1 := laneRound l.v1 h1, v2 := laneRound l.v2 h2, v3 := laneRound l.v3 h3,
    v4 := laneRound l.v4 h4 }

/-- R100. -/
def mixState (l : Lanes) : Word :=
  rotl32 l.v1 1#32 + rotl32 l.v2 7#32 + rotl32 l.v3 12#32 + rotl32 l.v4 18#32

/-- R101, the combiner's own finaliser. -/
def combMixFinal (hash : Word) : Word :=
  let hash := hash ^^^ (hash >>> 15)
  let hash := hash * prime2
  let hash := hash ^^^ (hash >>> 13)
  let hash := hash * prime3
  hash ^^^ (hash >>> 16)

/-! ## combine -/

/-- `4 * N` (R102 to R104). -/
def lengthTerm (n : Nat) : Word := BitVec.ofNat 32 (4 * n)

/-- `for k in lo+1 .. n: hash <- queueRound(hash, hc(k))`, in rising order (R102, R103). -/
def queueFold (lo n : Nat) (hc : Fin 8 → Word) (hash : Word) : Word :=
  ([0, 1, 2, 3, 4, 5, 6, 7] : List (Fin 8)).foldl
    (fun h k => if lo ≤ k.val ∧ k.val < n then queueRound h (hc k) else h) hash

/-- R102, N in 1..3. -/
def combineFew (seed : Word) (n : Nat) (hc : Fin 8 → Word) : Word :=
  combMixFinal (queueFold 0 n hc (seed + prime5 + lengthTerm n))

/-- R103, N in 4..7. -/
def combineLanes (seed : Word) (n : Nat) (hc : Fin 8 → Word) : Word :=
  let l := lanesPass (lanesInit seed) (hc 0) (hc 1) (hc 2) (hc 3)
  combMixFinal (queueFold 4 n hc (mixState l + lengthTerm n))

/-- R104, N = 8: two passes of the lanes, nothing queued. -/
def combineEight (seed : Word) (hc : Fin 8 → Word) : Word :=
  let l := lanesPass (lanesInit seed) (hc 0) (hc 1) (hc 2) (hc 3)
  let l := lanesPass l (hc 4) (hc 5) (hc 6) (hc 7)
  combMixFinal (mixState l + lengthTerm 8)

/-- R105's corner cases: which path an arity of 1..8 takes. -/
def combine (seed : Word) (n : Nat) (hc : Fin 8 → Word) : Word :=
  if n ≤ 3 then combineFew seed n hc
  else if n ≤ 7 then combineLanes seed n hc
  else combineEight seed hc

/-- R107: the combiner's result read as an `i32`, R10's `signed32`. -/
def signed32 (v : Word) : Int := if v.getLsbD 31 then (v.toNat : Int) - 4294967296 else v.toNat

/-! ## The commands -/

/-- R105, R106 with the seed given. An arity outside 1..8 is no command of the block (R60): it is refused
(I11), and no decoded word has one. -/
def combCommand (seed : Word) (n : Nat) (absent : BitVec 8) (s : State) :
    Host.Outcome State Fault Refusal :=
  if arityOk n then .next (succeed (combine seed n (componentHash s absent)) s)
  else .refused .combArityOutOfRange

/-- COMB, R105: seed 0. -/
def execComb (n : Nat) (absent : BitVec 8) (s : State) : Host.Outcome State Fault Refusal :=
  combCommand combDefaultSeed n absent s

/-- COMB.S, R106: the seed from SEED. -/
def execCombS (n : Nat) (absent : BitVec 8) (s : State) : Host.Outcome State Fault Refusal :=
  combCommand s.seed n absent s

end Sys2Proof.Machine
end

