-- ==== Sys2Proof/Machine/Hash.lean ====
section
/-! DEFINITION. What the two hash families share: the walk over the input (spec 20_memory.md R39, R41;
41_murmur2.md R83; 42_murmur3.md R91), the default seed (00_scope.md R8) and the VALID check every
hash command begins with (60_exceptions.md R109, R114). -/

namespace Sys2Proof.Machine

/-- M2_DEFAULT_SEED and M3_DEFAULT_SEED (R8). -/
def hashDefaultSeed : Word := 0xc58f1a7b#32

/-- Folds each 4-byte little-endian block, in order, while at least 4 bytes remain (R83 step 4, R91 step
3), then the 0 to 3 tail bytes in their original order (R41). -/
def foldInput (block : Word → Word → Word) (tail : Word → List Byte → Word) :
    Word → List Byte → Word
  | h, [] => tail h []
  | h, [b0] => tail h [b0]
  | h, [b0, b1] => tail h [b0, b1]
  | h, [b0, b1, b2] => tail h [b0, b1, b2]
  | h, b0 :: b1 :: b2 :: b3 :: rest =>
    foldInput block tail (block h (littleEndian [b0, b1, b2, b3])) rest

/-- `(u32)length` (R13, R83 step 3, R91 step 5). -/
def lengthWord (data : List Byte) : Word := BitVec.ofNat 32 data.length

/-- A hash command: NullInput on an absent buffer before anything else is read (R109), the model fault of
R46 on an unwritten byte, and otherwise the hash of the bytes. -/
def hashCommand (hash : List Byte → Word) (s : State) : Host.Outcome State Fault Refusal :=
  match inputBuffer s with
  | .absent => .next (raise .nullInput s)
  | .unwritten => .fault .bufByteUnwritten
  | .present data => .next (succeed (hash data) s)

end Sys2Proof.Machine
end

