-- ==== Sys2Proof/Machine/Murmur2.lean ====
section
/-! DEFINITION. MurmurHash2 (spec 41_murmur2.md) and the commands M2H and M2H.S. -/

namespace Sys2Proof.Machine

/-- R80's M. -/
def m2M : Word := 0x5bd1e995#32

/-- R81. -/
def m2Block (h k : Word) : Word :=
  let k := k * m2M
  let k := k ^^^ (k >>> 24)
  let k := k * m2M
  let h := h * m2M
  h ^^^ k

/-- R82's 16-bit pair: byte0 | byte1 << 8. -/
def m2Pair (b0 b1 : Byte) : Word := zext32 b0 ||| (zext32 b1 <<< 8)

/-- R82: the pair, a multiply where M2_TAIL3 = double, the top byte, a multiply. -/
def m2Tail3Bytes (tail3 : M2Tail3) (h : Word) (b0 b1 b2 : Byte) : Word :=
  let h := h ^^^ m2Pair b0 b1
  let h := match tail3 with
    | .double => h * m2M
    | .single => h
  let h := h ^^^ (zext32 b2 <<< 16)
  h * m2M

/-- R82. The input walk gives it at most three bytes. -/
def m2Tail (tail3 : M2Tail3) (h : Word) : List Byte → Word
  | [b0, b1, b2] => m2Tail3Bytes tail3 h b0 b1 b2
  | [b0, b1] => (h ^^^ m2Pair b0 b1) * m2M
  | [b0] => (h ^^^ zext32 b0) * m2M
  | _ => h

/-- R83 steps 2 to 6 on the bytes of a present buffer. An empty buffer gives 0 whatever the seed (R86). -/
def murmur2 (tail3 : M2Tail3) (seed : Word) (data : List Byte) : Word :=
  if data.isEmpty then 0#32
  else mixFinalMurmur2 (foldInput m2Block (m2Tail tail3) (seed ^^^ lengthWord data) data)

/-- M2H, R84: the default seed. -/
def execM2h (s : State) : Host.Outcome State Fault Refusal :=
  hashCommand (murmur2 params.m2Tail3 hashDefaultSeed) s

/-- M2H.S, R85: the seed from SEED. -/
def execM2hS (s : State) : Host.Outcome State Fault Refusal :=
  hashCommand (murmur2 params.m2Tail3 s.seed) s

end Sys2Proof.Machine
end

