-- ==== Sys2Proof/Machine/Murmur3.lean ====
section
/-! DEFINITION. MurmurHash3, 32-bit (spec 42_murmur3.md) and the commands M3H and M3H.S. -/

namespace Sys2Proof.Machine

/-- R88's C1. -/
def m3C1 : Word := 0xcc9e2d51#32

/-- R88's C2. -/
def m3C2 : Word := 0x1b873593#32

/-- R89, R90: what k1 goes through before it is XORed into h1. -/
def m3Scramble (k1 : Word) : Word := rotl32 (k1 * m3C1) 15#32 * m3C2

/-- R89. -/
def m3Block (h1 k1 : Word) : Word :=
  rotl32 (h1 ^^^ m3Scramble k1) 13#32 * 5#32 + 0xe6546b64#32

/-- R90: h1 itself is neither rotated nor scaled. The input walk gives it at most three bytes. -/
def m3Tail (h1 : Word) : List Byte → Word
  | [b0, b1, b2] => h1 ^^^ m3Scramble ((zext32 b2 <<< 16) ^^^ (zext32 b1 <<< 8) ^^^ zext32 b0)
  | [b0, b1] => h1 ^^^ m3Scramble ((zext32 b1 <<< 8) ^^^ zext32 b0)
  | [b0] => h1 ^^^ m3Scramble (zext32 b0)
  | _ => h1

/-- R91 step 2, parameter M3_H1_INIT. -/
def m3H1 (init : M3H1Init) (seed : Word) : Word :=
  match init with
  | .zero => 0#32
  | .seed => seed

/-- R91 steps 2 to 5 on the bytes of a present buffer. There is no early return for an empty one (R92). -/
def murmur3 (init : M3H1Init) (seed : Word) (data : List Byte) : Word :=
  mixFinalMurmur3 (foldInput m3Block m3Tail (m3H1 init seed) data ^^^ lengthWord data)

/-- M3H, R92: the default seed. -/
def execM3h (s : State) : Host.Outcome State Fault Refusal :=
  hashCommand (murmur3 params.m3H1Init hashDefaultSeed) s

/-- M3H.S, R93: the seed from SEED. -/
def execM3hS (s : State) : Host.Outcome State Fault Refusal :=
  hashCommand (murmur3 params.m3H1Init s.seed) s

end Sys2Proof.Machine
end

