-- ==== Sys2Proof/Machine/Dispatch.lean ====
section
/-! DEFINITION. One arm per command: each calls its meaning. -/

namespace Sys2Proof.Machine

def exec (i : Instr) (s : State) : Host.Outcome State Fault Refusal :=
  match i with
  | .rotl32 => Sys2Proof.Machine.execRotl32 s
  | .mix2 => Sys2Proof.Machine.execMix2 s
  | .mix3 => Sys2Proof.Machine.execMix3 s
  | .m2h => Sys2Proof.Machine.execM2h s
  | .m2hS => Sys2Proof.Machine.execM2hS s
  | .m3h => Sys2Proof.Machine.execM3h s
  | .m3hS => Sys2Proof.Machine.execM3hS s
  | .comb n absent => Sys2Proof.Machine.execComb n absent s
  | .combS n absent => Sys2Proof.Machine.execCombS n absent s

end Sys2Proof.Machine
end

