-- ==== Sys2Proof/Machine/Bus.lean ====
section
/-! DEFINITION. What a host access does to the block: register reads and writes (spec 10_state.md R20 to
R28), the CMD write that runs a command (R21, 60_exceptions.md R110, R114), byte writes to BUF
(20_memory.md R49), reset (70_reset_and_hazards.md R123) and the mapping of bus addresses (R47, R48). -/

namespace Sys2Proof.Machine

/-! ## Register accesses -/

/-- R114: decoding comes first; an illegal word raises IllegalCommand and no function runs (R110). -/
def runCommand (w : Word) (s : State) : Host.Outcome State Fault Refusal :=
  match decode w with
  | .command i => exec i s
  | .illegal _ => .next (raise .illegalCommand s)

/-- A host write of a register; on CMD it stores the word and then runs the command it encodes, as one
transaction (R21, R128). -/
def hostWrite (r : Reg) (w : Word) (s : State) : Host.Outcome State Fault Refusal :=
  if r = .cmd then runCommand w (writeReg .cmd w s) else .next (writeReg r w s)

/-- I9: STATUS shows an ECODE of 3..15 or a reserved bit, or BUF_CTRL shows a reserved bit. -/
def showsReserved (s : State) : Reg → Bool
  | .status => statusReserved s.status != 0#32 || decide (3 ≤ (statusEcode s.status).toNat)
  | .bufCtrl => s.bufCtrl &&& 0xFFFFFFFE#32 != 0#32
  | _ => false

/-- A host read of a register returns its value and changes nothing in the block (R44). -/
def hostRead (r : Reg) (s : State) : Host.Outcome State Fault Refusal :=
  if showsReserved s r then .fault .reservedBitsSeen
  else .next { s with replies := s.replies ++ [readReg s r] }

/-! ## Bus addresses -/

/-- What a bus access of some width at some address reaches. -/
inductive BusTarget where
  | reg (r : Reg)
  | buf (off : Word)
  | refused (why : Refusal)
  deriving DecidableEq, Repr

/-- R47: the address lies in the 64-byte register window. -/
def inWindow (regBase addr : Nat) : Bool := decide (regBase ≤ addr) && decide (addr < regBase + 64)

/-- D23: the address lies in BUF's 2^32 bytes, where BUF is mapped. -/
def inBuf (bufBase : Option Nat) (addr : Nat) : Bool :=
  match bufBase with
  | none => false
  | some base => decide (base ≤ addr) && decide (addr < base + 4294967296)

/-- R47, R48, R49, I7: an aligned 32-bit access at REG_BASE + 4*i reaches register i, a one-byte access in
a mapped BUF reaches its byte, and everything else is refused. -/
def busTarget (regBase : Nat) (bufBase : Option Nat) (addr width : Nat) : BusTarget :=
  match inWindow regBase addr, inBuf bufBase addr with
  | true, true => .refused .addressAmbiguous
  | true, false =>
    if width = 4 ∧ addr % 4 = 0 ∧ (addr - regBase) % 4 = 0 then
      .reg (Reg.ofIndex (Fin.ofNat 16 ((addr - regBase) / 4)))
    else .refused .notAligned32
  | false, true =>
    if width = 1 then .buf (BitVec.ofNat 32 (addr - bufBase.getD 0)) else .refused .bufNotByteWrite
  | false, false => .refused .outsideWindow

/-- A bus read of a register; BUF is written by the host only, never read by it (R35). -/
def busRead (regBase : Nat) (bufBase : Option Nat) (addr width : Nat) (s : State) :
    Host.Outcome State Fault Refusal :=
  match busTarget regBase bufBase addr width with
  | .reg r => hostRead r s
  | .buf _ => .refused .bufNotByteWrite
  | .refused why => .refused why

/-- A bus write of a register, or of one byte of a mapped BUF; the lanes are little-endian (R48). -/
def busWrite (regBase : Nat) (bufBase : Option Nat) (addr : Nat) (bytes : List Byte) (s : State) :
    Host.Outcome State Fault Refusal :=
  match busTarget regBase bufBase addr bytes.length with
  | .reg r => hostWrite r (littleEndian bytes) s
  | .buf off => .next (writeBuf off (bytes.headD 0#8) s)
  | .refused why => .refused why

/-! ## Any host access -/

/-- One host access, performed whole (R51, R128). -/
def perform (a : HostAccess) (s : State) : Host.Outcome State Fault Refusal :=
  match a with
  | .read r => hostRead r s
  | .write r w => hostWrite r w s
  | .writeByte off b => .next (writeBuf off b s)
  | .reset => .next (resetBlock s)
  | .busRead addr width => busRead Config.regBase Config.bufBase addr width s
  | .busWrite addr bytes => busWrite Config.regBase Config.bufBase addr bytes s

/-- The next thing the block does: the oldest pending host access, in the host's program order (R51). With
none pending nothing happens: only a write runs a command (R21, R124), and there is no halt (R127). -/
def hostStep (s : State) : Host.Outcome State Fault Refusal :=
  match s.pending with
  | [] => .next s
  | a :: rest => perform a { s with pending := rest }

end Sys2Proof.Machine
end

