-- ==== Sys2Proof/Machine/Step.lean ====
section
/-! DEFINITION. One step of the machine: the oldest pending host access (spec 20_memory.md R51). The block
fetches nothing (10_state.md R32): a command word takes effect only when written to CMD (R53). -/

namespace Sys2Proof.Machine

/-- One step; all of it is `hostStep` (Machine/Bus.lean). -/
def step (s : State) : Host.Outcome State Fault Refusal := Sys2Proof.Machine.hostStep s

/-- The state in which the host's very next access is the write of that command word to CMD, ahead of
whatever it already asked for: this is how a command comes to the block (R21, R32; log 1). -/
def State.withFetchWord (s : State) (nbits w : Nat) : State :=
  { s with pending := .write .cmd (tableWord nbits w) :: s.pending }

end Sys2Proof.Machine
end

