-- ==== Sys2Proof/Machine/HostProgram.lean ====
section
/-! DEFINITION. The host-program notation of spec 30_encoding.md: command lines (R67), the `cmd` line
(R68) and the pseudo-instructions with their expansions (R69), as lists of host accesses. -/

namespace Sys2Proof.Machine

/-- R68: `cmd <command>` is `wr CMD, <encoding of command>`. A term whose arity has no encoding (R60) is
no command and gives no line: I11's refusal, as log 13 reads it. -/
def hostCmd (i : Instr) : Option HostAccess :=
  if i.wellFormed then some (.write .cmd (encode i)) else none

/-- The byte writes BUF[off+j] <- bj, in order; for offsets below 2^32, which its callers see to. -/
def byteWrites (off : Nat) : List Byte → List HostAccess
  | [] => []
  | b :: rest => .writeByte (BitVec.ofNat 32 off) b :: byteWrites (off + 1) rest

/-- R68: `wrb off, b0 b1 ...`. DESIGN CHOICE (log 14): the spec does not say what a line does whose bytes
reach an offset of 2^32 or above, which BUF does not have (R38); such a line gives no accesses at all. -/
def hostWriteBytes (off : Nat) (bytes : List Byte) : Option (List HostAccess) :=
  if off + bytes.length ≤ 4294967296 then some (byteWrites off bytes) else none

/-- R69: `ldbuf [b0 .. bn-1]`. An n of 2^32 or above is no imm32 of R68 and no BUF_LEN (R28): such a line
gives no accesses, I12's refusal as log 14 reads it. -/
def ldbuf (bytes : List Byte) : Option (List HostAccess) :=
  if bytes.length < 4294967296 then
    some (byteWrites 0 bytes ++
      [.write .bufLen (BitVec.ofNat 32 bytes.length), .write .bufCtrl 1#32])
  else none

/-- R69: `nullbuf`. -/
def nullbuf : List HostAccess := [.write .bufCtrl 0#32]

/-- R69: `clrerr`. -/
def clrerr : List HostAccess := [.write .status 4#32]

/-- R69: `ROTR32`, rotate right by the count c. -/
def rotr32 (c : Word) : List HostAccess := 
  [.write .opb ((0#32 - c) &&& 31#32), .write .cmd (encode .rotl32)]

/-- One command line of R67, in tokens: the mnemonic's characters, COMB's `n` and its `absent=m`. -/
structure AsmLine where
  mnemonic : List Char
  n : Option Nat
  absent : Option Nat
  deriving DecidableEq, Repr

/-- COMB's operands: n is 1..8, m is an 8-bit mask, default 0. -/
def assembleComb (mk : Nat → BitVec 8 → Instr) (l : AsmLine) : Option Instr :=
  match l.n with
  | none => none
  | some n =>
    if arityOk n ∧ l.absent.getD 0 < 256 then some (mk n (BitVec.ofNat 8 (l.absent.getD 0))) else none

/-- A command that takes no textual operand. -/
def assemblePlain (i : Instr) (l : AsmLine) : Option Instr :=
  if l.n = none ∧ l.absent = none then some i else none

/-- R67: mnemonics are case-insensitive; only COMB takes textual operands. -/
def assemble (l : AsmLine) : Option Instr :=
  let m := l.mnemonic.map Char.toUpper
  if m = ['R', 'O', 'T', 'L', '3', '2'] then assemblePlain .rotl32 l
  else if m = ['M', 'I', 'X', '2'] then assemblePlain .mix2 l
  else if m = ['M', 'I', 'X', '3'] then assemblePlain .mix3 l
  else if m = ['M', '2', 'H'] then assemblePlain .m2h l
  else if m = ['M', '2', 'H', '.', 'S'] then assemblePlain .m2hS l
  else if m = ['M', '3', 'H'] then assemblePlain .m3h l
  else if m = ['M', '3', 'H', '.', 'S'] then assemblePlain .m3hS l
  else if m = ['C', 'O', 'M', 'B'] then assembleComb .comb l
  else if m = ['C', 'O', 'M', 'B', '.', 'S'] then assembleComb .combS l
  else none

end Sys2Proof.Machine
end

