-- ==== Sys2Proof/Safety.lean ====
section
/-! DEFINITION. What claims call a legal state, a command that is ready to complete, and a host access
that clears or commands (spec 10_state.md R22, R27, R33; 20_memory.md R46; 60_exceptions.md R122). -/

namespace Sys2Proof.Machine

/-- The invariant of every state a run reaches: BUF in canonical form, reserved bits 0 and ECODE at most
2 (R22, R27, I9), the STATUS fields in agreement with each other (R112, R113), and, while no command
has completed since reset, CMD and RESULT still 0 (R21 to R23). -/
structure State.Legal (s : State) : Prop where
  buf_wf : s.buf.wf
  status_reserved : statusReserved s.status = 0#32
  ecode_le : (statusEcode s.status).toNat ≤ 2
  bufCtrl_reserved : s.bufCtrl &&& 0xFFFFFFFE#32 = 0#32
  err_iff : statusErr s.status = true ↔ statusEcode s.status ≠ 0#4
  done_of_err : statusErr s.status = true → statusDone s.status = true
  done_of_errSeen : statusErrSeen s.status = true → statusDone s.status = true
  idle_zero : statusDone s.status = false → s.cmd = 0#32 ∧ s.result = 0#32

/-- R46's precondition: the host wrote every byte at offsets 0..BUF_LEN-1 since reset. -/
def State.inputWritten (s : State) : Prop :=
  ∀ a, a < s.bufLen.toNat → (s.buf.read a).isSome = true

/-- The four commands that read BUF (R45). -/
def isHash : Instr → Bool
  | .rotl32 => false
  | .mix2 => false
  | .mix3 => false
  | .m2h => true
  | .m2hS => true
  | .m3h => true
  | .m3hS => true
  | .comb _ _ => false
  | .combS _ _ => false

/-- The command is one of the block's and raises no model fault: a present buffer is written (R46), a
rotate count is one that ROTL_OOB lets through (R74). -/
def commandReady (i : Instr) (s : State) : Prop :=
  i.wellFormed = true ∧
    (isHash i = true → bufValid s = true → s.inputWritten) ∧
    (i = .rotl32 → params.rotlOob = .mask ∨ rotateCountInRange s.opb = true)

/-- The register and word that an access writes, by name or by bus address. -/
def HostAccess.registerWrite : HostAccess → Option (Reg × Word)
  | .write r w => some (r, w)
  | .busWrite addr bytes =>
    match busTarget Config.regBase Config.bufBase addr bytes.length with
    | .reg r => some (r, littleEndian bytes)
    | .buf _ => none
    | .refused _ => none
  | .read _ => none
  | .writeByte _ _ => none
  | .reset => none
  | .busRead _ _ => none

/-- R22, R122: the accesses that clear ERRSEEN, reset and a STATUS write with bit 2 = 1. -/
def HostAccess.clearsErrSeen (a : HostAccess) : Prop :=
  a = .reset ∨ ∃ w : Word, a.registerWrite = some (Reg.status, w) ∧ w.getLsbD 2 = true

/-- The access is a CMD write. -/
def HostAccess.isCommand (a : HostAccess) : Prop := ∃ w, a.registerWrite = some (Reg.cmd, w)

/-- A raw bus access by host address. -/
def HostAccess.isBus : HostAccess → Bool
  | .read _ => false
  | .write _ _ => false
  | .writeByte _ _ => false
  | .reset => false
  | .busRead _ _ => true
  | .busWrite _ _ => true

/-- The oldest pending access names a register or a BUF byte, and a command that it writes is ready. -/
def State.ready (s : State) : Prop :=
  ∀ a rest, s.pending = a :: rest →
    a.isBus = false ∧ ∀ w i, a = .write .cmd w → decode w = .command i → commandReady i s

/-- The state after `k` steps, where none of them stops (a model's reading of R127's run). -/
def runsTo (k : Nat) (s t : State) : Prop := Host.Core.run core k s = .next t

end Sys2Proof.Machine
end

