-- ==== Sys2Proof/Certificates/Slice0/Obligations.lean ====
section
/-! DEFINITION. The statements for the provers. `Sys2Proof.Reference` writes the spec's pseudocode a
second time, on natural numbers reduced modulo 2^32 (R11, R12) and with the spec's own offsets and loop
bounds, so that a statement about a command's result does not repeat the model's definition. -/

namespace Sys2Proof.Reference

open Sys2Proof

/-! ## Arithmetic (R11, R12) -/

/-- R11: the low 32 bits. -/
def wrap (x : Nat) : Nat := x % 4294967296

/-- R12's `a << s`. -/
def shl (a s : Nat) : Nat := wrap (a * 2 ^ s)

/-- R12's `a >> s`. -/
def shr (a s : Nat) : Nat := a / 2 ^ s

/-- The document's `(x << count) | (x >> (32 - count))`, for a count in 1..31 (R73). -/
def rotl (x count : Nat) : Nat := shl x count ||| shr x (32 - count)

/-- R75. -/
def mixFinalMurmur2 (h0 : Nat) : Nat :=
  let h1 := h0 ^^^ shr h0 13
  let h2 := wrap (h1 * 0x5bd1e995)
  h2 ^^^ shr h2 15

/-- R77. -/
def mixFinalMurmur3 (h0 : Nat) : Nat :=
  let h1 := wrap ((h0 ^^^ shr h0 16) * 0x85ebca6b)
  let h2 := wrap ((h1 ^^^ shr h1 13) * 0xc2b2ae35)
  h2 ^^^ shr h2 16

/-! ## The input (R15, R38) -/

/-- `zext_32(BUF[a])`, for an offset below the length. -/
def byteAt (data : List Byte) (a : Nat) : Nat := (data.getD a 0).toNat

/-- R15: the sum over j in 0..n-1 of `zext_32(BUF[a+j]) << (8*j)`. -/
def memRead (data : List Byte) (a n : Nat) : Nat :=
  ((List.range n).map fun j => shl (byteAt data (a + j)) (8 * j)).sum

/-! ## MurmurHash2 (R80 to R83) -/

/-- R81. -/
def m2Block (h k : Nat) : Nat :=
  let k1 := wrap (k * 0x5bd1e995)
  let k2 := k1 ^^^ shr k1 24
  let k3 := wrap (k2 * 0x5bd1e995)
  wrap (h * 0x5bd1e995) ^^^ k3

/-- R82, the tail of r bytes at offset t. -/
def m2Tail (tail3 : M2Tail3) (h : Nat) (data : List Byte) (t r : Nat) : Nat :=
  if r = 3 then
    let p := h ^^^ (byteAt data t ||| shl (byteAt data (t + 1)) 8)
    let p := if tail3 = .double then wrap (p * 0x5bd1e995) else p
    wrap ((p ^^^ shl (byteAt data (t + 2)) 16) * 0x5bd1e995)
  else if r = 2 then
    wrap ((h ^^^ (byteAt data t ||| shl (byteAt data (t + 1)) 8)) * 0x5bd1e995)
  else if r = 1 then wrap ((h ^^^ byteAt data t) * 0x5bd1e995)
  else h

/-- R83 steps 2 to 6: the blocks at offsets 0, 4, 8, ... while at least 4 bytes remain, then the tail. -/
def murmur2 (tail3 : M2Tail3) (seed : Nat) (data : List Byte) : Nat :=
  let length := data.length
  let blocks := length / 4
  if length = 0 then 0
  else
    let h := (List.range blocks).foldl (fun h b => m2Block h (memRead data (4 * b) 4))
      (seed ^^^ wrap length)
    mixFinalMurmur2 (m2Tail tail3 h data (4 * blocks) (length - 4 * blocks))

/-! ## MurmurHash3 (R88 to R91) -/

/-- R89. -/
def m3Block (h1 k1 : Nat) : Nat :=
  let k1 := wrap (k1 * 0xcc9e2d51)
  let k1 := rotl k1 15
  let k1 := wrap (k1 * 0x1b873593)
  let h1 := h1 ^^^ k1
  let h1 := rotl h1 13
  wrap (h1 * 5 + 0xe6546b64)

/-- R90. -/
def m3Tail (h1 : Nat) (data : List Byte) (t r : Nat) : Nat :=
  let k1 := 0
  let k1 := if 3 ≤ r then k1 ^^^ shl (byteAt data (t + 2)) 16 else k1
  let k1 := if 2 ≤ r then k1 ^^^ shl (byteAt data (t + 1)) 8 else k1
  if 1 ≤ r then
    let k1 := k1 ^^^ byteAt data t
    h1 ^^^ wrap (rotl (wrap (k1 * 0xcc9e2d51)) 15 * 0x1b873593)
  else h1

/-- R91 steps 2 to 5. -/
def murmur3 (init : M3H1Init) (seed : Nat) (data : List Byte) : Nat :=
  let length := data.length
  let blocks := length / 4
  let h1 := if init = .seed then seed else 0
  let h1 := (List.range blocks).foldl (fun h b => m3Block h (memRead data (4 * b) 4)) h1
  let h1 := m3Tail h1 data (4 * blocks) (length % 4)
  mixFinalMurmur3 (h1 ^^^ wrap length)

/-! ## The combiner (R96 to R104; `hc k` is the spec's hc(k), k from 1) -/

/-- R98, with R96's decimal constants. -/
def queueRound (hash hc : Nat) : Nat :=
  wrap (rotl (wrap (hash + hc * 3266489917)) 17 * 668265263)

/-- R99. -/
def round (v hc : Nat) : Nat := wrap (rotl (wrap (v + hc * 2246822519)) 13 * 2654435761)

/-- R100. -/
def mixState (v1 v2 v3 v4 : Nat) : Nat := wrap (rotl v1 1 + rotl v2 7 + rotl v3 12 + rotl v4 18)

/-- R101. -/
def mixFinal (h0 : Nat) : Nat :=
  let h1 := h0 ^^^ shr h0 15
  let h2 := wrap (h1 * 2246822519)
  let h3 := h2 ^^^ shr h2 13
  let h4 := wrap (h3 * 3266489917)
  h4 ^^^ shr h4 16

/-- `for k in lo .. n: hash <- queueRound(hash, hc(k))`. -/
def queueAll (lo n : Nat) (hc : Nat → Nat) (hash : Nat) : Nat :=
  (List.range' lo (n + 1 - lo)).foldl (fun h k => queueRound h (hc k)) hash

/-- R102, R103 and R104, for N in 1..8. -/
def combine (seed n : Nat) (hc : Nat → Nat) : Nat :=
  if n ≤ 3 then mixFinal (queueAll 1 n hc (wrap (wrap (seed + 374761393) + 4 * n)))
  else
    let v1 := round (wrap (seed + 2654435761 + 2246822519)) (hc 1)
    let v2 := round (wrap (seed + 2246822519)) (hc 2)
    let v3 := round seed (hc 3)
    let v4 := round (wrap (seed + (4294967296 - 2654435761))) (hc 4)
    if n ≤ 7 then mixFinal (queueAll 5 n hc (wrap (mixState v1 v2 v3 v4 + 4 * n)))
    else
      let v1 := round v1 (hc 5)
      let v2 := round v2 (hc 6)
      let v3 := round v3 (hc 7)
      let v4 := round v4 (hc 8)
      mixFinal (wrap (mixState v1 v2 v3 v4 + 32))

end Sys2Proof.Reference

namespace Sys2Proof.Machine

/-! ## Vocabulary of the statements -/

/-- R30: what a command leaves alone: every register but RESULT and STATUS, every byte of BUF, and the
host's own side. -/
def OperandsKept (s t : State) : Prop :=
  t.cmd = s.cmd ∧ t.opa = s.opa ∧ t.opb = s.opb ∧ t.seed = s.seed ∧ t.bufCtrl = s.bufCtrl ∧
    t.bufLen = s.bufLen ∧ t.hc = s.hc ∧ (∀ a, t.buf.read a = s.buf.read a) ∧
    t.pending = s.pending ∧ t.replies = s.replies

/-- R113: completion with value `v`; the reserved STATUS bits are as they were. -/
def SuccessEffect (v : Word) (s t : State) : Prop :=
  t.result = v ∧ statusDone t.status = true ∧ statusErr t.status = false ∧
    statusEcode t.status = 0#4 ∧ statusErrSeen t.status = statusErrSeen s.status ∧
    statusReserved t.status = statusReserved s.status ∧ OperandsKept s t

/-- R112: completion with error code `e`; the reserved STATUS bits are as they were. -/
def ErrorEffect (e : BitVec 4) (s t : State) : Prop :=
  t.result = s.result ∧ statusDone t.status = true ∧ statusErr t.status = true ∧
    statusEcode t.status = e ∧ statusErrSeen t.status = true ∧
    statusReserved t.status = statusReserved s.status ∧ OperandsKept s t

/-- The input of a hash command is these bytes: VALID = 1, BUF_LEN is their number, and the host has
written each of them (R38, R126). -/
def InputIs (s : State) (data : List Byte) : Prop :=
  s.bufCtrl.getLsbD 0 = true ∧ data.length = s.bufLen.toNat ∧
    ∀ j (h : j < data.length), s.buf.read j = some data[j]

/-- R97: hc(k), k from 1, as a number. -/
def componentNat (s : State) (absent : BitVec 8) (k : Nat) : Nat :=
  if absent.getLsbD (k - 1) then 0 else (s.hc.toList.getD (k - 1) 0).toNat

/-- R66: two states agree on BUF_CTRL.VALID and, where it is 1, on BUF_LEN and the bytes below it. -/
def SameInput (s s' : State) : Prop :=
  s.bufCtrl.getLsbD 0 = s'.bufCtrl.getLsbD 0 ∧
    (s.bufCtrl.getLsbD 0 = true →
      s.bufLen = s'.bufLen ∧ ∀ a, a < s.bufLen.toNat → s.buf.read a = s'.buf.read a)

/-- R66, R61: two states agree on the component hashes that COMB n, absent reads. -/
def SameComponents (n : Nat) (absent : BitVec 8) (s s' : State) : Prop :=
  ∀ k : Fin 8, k.val < n → absent.getLsbD k.val = false → s.hc[k] = s'.hc[k]

/-- R66's table: two states agree on everything that the command reads. ROTL32 reads OPB[4:0]; only
ROTL_OOB = fault looks at the other bits of OPB (R74). -/
def SameOperands : Instr → State → State → Prop
  | .rotl32, s, s' => s.opa = s'.opa ∧ s.opb &&& 31#32 = s'.opb &&& 31#32 ∧
      (params.rotlOob = .fault → s.opb = s'.opb)
  | .mix2, s, s' => s.opa = s'.opa
  | .mix3, s, s' => s.opa = s'.opa
  | .m2h, s, s' => SameInput s s'
  | .m2hS, s, s' => SameInput s s' ∧ (s.bufCtrl.getLsbD 0 = true → s.seed = s'.seed)
  | .m3h, s, s' => SameInput s s'
  | .m3hS, s, s' => SameInput s s' ∧ (s.bufCtrl.getLsbD 0 = true → s.seed = s'.seed)
  | .comb n absent, s, s' => SameComponents n absent s s'
  | .combS n absent, s, s' => SameComponents n absent s s' ∧ s.seed = s'.seed

/-- Two outcomes of one command are the same as far as the command determines them: the same error code,
and the same RESULT where there was no error. -/
def SameOutcome : Host.Outcome State Fault Refusal → Host.Outcome State Fault Refusal → Prop
  | .next t, .next t' =>
    statusErr t.status = statusErr t'.status ∧ statusEcode t.status = statusEcode t'.status ∧
      (statusErr t.status = false → t.result = t'.result)
  | .fault f, .fault f' => f = f'
  | .refused r, .refused r' => r = r'
  | _, _ => False

/-- R20's access types: what a host write of `w` leaves in a register that held `old`. -/
def storedByHost (r : Reg) (w old : Word) : Word :=
  match r with
  | .status => if w.getLsbD 2 then old &&& ~~~4#32 else old
  | .result => old
  | .bufCtrl => if w.getLsbD 0 then 1#32 else 0#32
  | _ => w

end Sys2Proof.Machine

open Sys2Proof Sys2Proof.Machine

/-! ## Reset, state and host accesses -/

/-- R123, on the reset state and on the reset input: every register is 0, the STATUS fields with it. The
reset input is one access of its own, so it acts between the host's accesses and leaves the others. -/
def Obligations.ResetZeroesEveryRegister : Prop :=
  ((∀ r, readReg State.reset r = 0#32) ∧ statusDone State.reset.status = false ∧
    statusErr State.reset.status = false ∧ statusErrSeen State.reset.status = false ∧
    statusEcode State.reset.status = 0#4) ∧
    ∀ s, ∃ t, perform .reset s = .next t ∧ (∀ r, readReg t r = 0#32) ∧
      statusDone t.status = false ∧ statusErr t.status = false ∧ statusErrSeen t.status = false ∧
      statusEcode t.status = 0#4 ∧ t.pending = s.pending ∧ t.replies = s.replies

/-- The reset state is legal. -/
def Obligations.ResetStateIsLegal : Prop := State.reset.Legal

/-- Every step from a legal state gives a legal state: BUF canonical, reserved bits 0, ECODE at most 2,
ERR exactly with an ECODE, and CMD and RESULT still 0 while DONE is 0. -/
def Obligations.StepKeepsStateLegal : Prop :=
  ∀ s t, s.Legal → step s = .next t → t.Legal

/-- A host write of a register other than CMD stores what the access type says and touches nothing else;
no register aliases another. -/
def Obligations.HostWriteFollowsAccessType : Prop :=
  ∀ r w s, r ≠ Reg.cmd → ∃ t, hostWrite r w s = .next t ∧
    (∀ r', readReg t r' = if r' = r then storedByHost r w (readReg s r) else readReg s r') ∧
    (∀ a, t.buf.read a = s.buf.read a) ∧ t.pending = s.pending ∧ t.replies = s.replies

/-- R122: a STATUS write clears ERRSEEN when bit 2 is 1, and changes nothing else. The reset input clears it
too, and a step that does neither leaves a set ERRSEEN set. -/
def Obligations.ErrSeenClearedOnlyByResetOrItsWrite : Prop :=
  (∀ w s, ∃ t, hostWrite .status w s = .next t ∧
      statusErrSeen t.status = (statusErrSeen s.status && !(w.getLsbD 2)) ∧
      statusDone t.status = statusDone s.status ∧ statusErr t.status = statusErr s.status ∧
      statusEcode t.status = statusEcode s.status ∧
      statusReserved t.status = statusReserved s.status ∧
      t.result = s.result ∧ OperandsKept s t) ∧
    (∀ s, statusErrSeen (resetBlock s).status = false) ∧
    ∀ s t, step s = .next t → (∀ a ∈ s.pending.head?, ¬ a.clearsErrSeen) →
      statusErrSeen s.status = true → statusErrSeen t.status = true

/-- R122's criterion for a run with no error: if ERRSEEN is 0 at the end, and none of the accesses
performed clears it, then it is 0 after every step of the run, every CMD write of the run ends with ERR 0,
whatever ERR was before, and no other step sets ERR. -/
def Obligations.ErrSeenZeroAtEndMeansNoErrorInRun : Prop :=
  ∀ (k : Nat) (s t : State), runsTo k s t → (∀ a ∈ s.pending.take k, ¬ a.clearsErrSeen) →
    statusErrSeen t.status = false →
    ∀ (j : Nat) (u : State), j ≤ k → runsTo j s u →
      statusErrSeen u.status = false ∧
        ∀ v, j < k → step u = .next v →
          (∀ a ∈ u.pending.head?, a.isCommand → statusErr v.status = false) ∧
            (statusErr v.status = true → statusErr u.status = true)

/-- In a legal state a host read returns the register and changes nothing in the block; the model's fault
of I9 is for the other states. -/
def Obligations.HostReadReturnsRegister : Prop :=
  ∀ (s : State) (r : Reg), s.Legal →
    hostRead r s = .next { s with replies := s.replies ++ [readReg s r] }

/-- A read whose register would show a reserved STATUS or BUF_CTRL bit, or an ECODE of 3..15, faults
(I9); such a state is not legal. -/
def Obligations.ReservedStateReadFaults : Prop :=
  ∀ s : State,
    ((statusReserved s.status ≠ 0#32 ∨ 3 ≤ (statusEcode s.status).toNat) →
      hostRead .status s = .fault .reservedBitsSeen ∧ ¬ s.Legal) ∧
    (s.bufCtrl >>> 1 ≠ 0#32 → hostRead .bufCtrl s = .fault .reservedBitsSeen ∧ ¬ s.Legal)

/-- R49: a host byte write sets that byte and nothing else, and no command writes BUF. -/
def Obligations.HostByteWriteSetsThatByte : Prop :=
  (∀ s off b, ∃ t, perform (.writeByte off b) s = .next t ∧
      (∀ a, t.buf.read a = if a = off.toNat then some b else s.buf.read a) ∧
      (∀ r, readReg t r = readReg s r) ∧ t.pending = s.pending ∧ t.replies = s.replies) ∧
  ∀ i s t, exec i s = .next t → ∀ a, t.buf.read a = s.buf.read a

/-- Host accesses take effect one at a time, in the host's order: a step performs the oldest one and leaves
the others, it tells the host at most one value, and with none pending nothing happens (log 10). The pending
list and the list of replies are the model's own way to hold the host (log 1). -/
def Obligations.AccessesTakeEffectInHostOrder : Prop :=
  (∀ s, s.pending = [] → step s = .next s) ∧
    (∀ s a rest, s.pending = a :: rest → step s = perform a { s with pending := rest }) ∧
    ∀ s t a rest, s.pending = a :: rest → step s = .next t →
      t.pending = rest ∧ (t.replies = s.replies ∨ ∃ v, t.replies = s.replies ++ [v])

/-- Reads of RESULT and STATUS right behind a CMD write return what that command wrote. (What the host has
been told stands in `replies`, the model's own: log 1.) -/
def Obligations.ReadsAfterCommandSeeItsEffect : Prop :=
  ∀ s t w rest, s.Legal →
    s.pending = .write .cmd w :: .read .result :: .read .status :: rest → step s = .next t →
    runsTo 3 s { t with pending := rest, replies := s.replies ++ [t.result, t.status] }

/-- RESULT changes in a step only by a CMD write whose command ended with no error, or by reset. -/
def Obligations.ResultChangesOnlyBySuccessOrReset : Prop :=
  ∀ s t, step s = .next t → t.result ≠ s.result →
    ∃ a rest, s.pending = a :: rest ∧
      ((a.isCommand ∧ statusDone t.status = true ∧ statusErr t.status = false) ∨
        (a = .reset ∧ t.result = 0#32))

/-- In a legal, ready state a step goes on: the block itself has no other reason to stop. -/
def Obligations.ReadyStepCompletes : Prop :=
  ∀ s : State, s.Legal → s.ready → ∃ t, step s = .next t

/-- A host program whose accesses are ready when their turn comes runs to its end, one step an access (the
list of pending accesses is the model's own: log 1). -/
def Obligations.ReadyHostProgramRunsToItsEnd : Prop :=
  ∀ s : State, s.Legal → (∀ j u, runsTo j s u → u.ready) →
    ∃ t, runsTo s.pending.length s t ∧ t.pending = [] ∧ t.Legal

/-! ## Commands written to CMD -/

/-- A CMD write of a word that decodes to a command runs exactly that command, in the state in which CMD
holds the word and the access is off the list of pending ones (log 1). -/
def Obligations.StepRunsDecodedCommand : Prop :=
  ∀ s w i rest, s.pending = .write .cmd w :: rest → decode w = .command i →
    step s = exec i { s with pending := rest, cmd := w }

/-- `withFetchWord` puts the word first, so that the very next step runs the command it decodes to (how a
command comes to the block is the model's choice: log 1). -/
def Obligations.FetchWordRunsNext : Prop :=
  ∀ (s : State) (nbits w : Nat) (i : Instr), decodeTableWord nbits w = some i →
    step (s.withFetchWord nbits w) = exec i { s with cmd := BitVec.ofNat 32 (w % 2 ^ nbits) }

/-- R21: a CMD write stores the word and runs what it encodes, whatever CMD held; a read of CMD returns it,
illegal or not; no command writes CMD; CMD is 0 at reset and that 0 runs nothing. -/
def Obligations.CmdWriteStoresAndRuns : Prop :=
  (∀ s w, perform (.write .cmd w) s =
      match decode w with
      | .command i => exec i { s with cmd := w }
      | .illegal _ => .next (raise .illegalCommand { s with cmd := w })) ∧
  (∀ s t w, perform (.write .cmd w) s = .next t →
    t.cmd = w ∧ hostRead .cmd t = .next { t with replies := t.replies ++ [w] }) ∧
  (∀ i s t, exec i s = .next t → t.cmd = s.cmd) ∧
  State.reset.cmd = 0#32 ∧ step State.reset = .next State.reset

/-- R30: no command, legal or illegal, writes a register other than RESULT and STATUS, or a byte of BUF. -/
def Obligations.CommandWritesOnlyResultAndStatus : Prop :=
  (∀ i s t, exec i s = .next t → OperandsKept s t) ∧
    ∀ w s t, runCommand w s = .next t → OperandsKept s t

/-- R113, and that every command completes: a ready command that is not a hash command on an absent buffer
answers a next state, with R113's effects. -/
def Obligations.ReadyCommandSucceeds : Prop :=
  ∀ i s, commandReady i s → (isHash i = true → bufValid s = true) →
    ∃ v t, exec i s = .next t ∧ SuccessEffect v s t

/-- R112, R114: decoding comes first, so an illegal word ends with ECODE 2 whatever the buffer is; a legal
hash command checks VALID before anything else and ends with ECODE 1. Nothing but STATUS and CMD changes,
and no command ends with another code. -/
def Obligations.ErrorsArePreciseAndOrdered : Prop :=
  ∀ s w,
    ((∀ i, decode w ≠ .command i) →
      ∃ t, perform (.write .cmd w) s = .next t ∧ ErrorEffect 2#4 { s with cmd := w } t) ∧
    (∀ i, decode w = .command i → isHash i = true → s.bufCtrl.getLsbD 0 = false →
      ∃ t, perform (.write .cmd w) s = .next t ∧ ErrorEffect 1#4 { s with cmd := w } t) ∧
    (∀ t, perform (.write .cmd w) s = .next t →
      (statusErr t.status = false ∧ statusEcode t.status = 0#4) ∨
        (statusErr t.status = true ∧
          (statusEcode t.status = 1#4 ∨ statusEcode t.status = 2#4)))

/-- R109: the hash commands raise NullInput on an absent buffer, whatever BUF_LEN, SEED and BUF hold, and
never on a present one, the empty one included; no other command raises it. -/
def Obligations.NullInputExactlyOnAbsentBuffer : Prop :=
  (∀ i s, isHash i = true → s.bufCtrl.getLsbD 0 = false →
    exec i s = .next (raise .nullInput s)) ∧
  (∀ i s t, exec i s = .next t → (isHash i = false ∨ s.bufCtrl.getLsbD 0 = true) →
    statusErr t.status = false ∧ statusEcode t.status = 0#4) ∧
  ∀ i s, isHash i = true → s.bufCtrl.getLsbD 0 = true → s.bufLen = 0#32 →
    ∃ t, exec i s = .next t ∧ statusErr t.status = false

/-- R46: a hash command that would read a byte not written since reset is a fault, and only then. -/
def Obligations.UnwrittenInputByteFaults : Prop :=
  ∀ i s, isHash i = true →
    (exec i s = .fault .bufByteUnwritten ↔
      s.bufCtrl.getLsbD 0 = true ∧ ∃ a, a < s.bufLen.toNat ∧ s.buf.read a = none)

/-- A COMB or COMB.S term with an arity outside 1..8 is no command of the block, and is refused (I11, the
model's choice: log 6); no word decodes to one. -/
def Obligations.IllFormedArityRefused : Prop :=
  (∀ n absent s, (n = 0 ∨ 9 ≤ n) →
    exec (.comb n absent) s = .refused .combArityOutOfRange ∧
      exec (.combS n absent) s = .refused .combArityOutOfRange) ∧
  ∀ w i, decode w = .command i → i.wellFormed = true

/-- A command's error code, and its RESULT where it ends with no error, depend on nothing but what R66's
table says it reads: not on STATUS, RESULT, CMD or any other register, and on no byte at BUF_LEN or above.
The faults and refusals of the model depend on nothing else either. -/
def Obligations.CommandDependsOnlyOnItsOperands : Prop :=
  ∀ i s s', SameOperands i s s' → SameOutcome (exec i s) (exec i s')

/-! ## Encoding -/

/-- Decoding the word of a well-formed command gives that command, every operand at every value. -/
def Obligations.DecodeOfEncodeIsTheCommand : Prop :=
  ∀ i : Instr, i.wellFormed = true → decode (encode i) = .command i

/-- A word that decodes to a command is the word that command encodes to: each command has one word. -/
def Obligations.EncodeOfDecodeIsTheWord : Prop :=
  ∀ w i, decode w = .command i → encode i = w

/-- Decoding agrees with the opcode table: a word decodes to a command exactly of a row it matches, it
matches at most one row, and a word that matches none is illegal. -/
def Obligations.DecodeAgreesWithOpcodeTable : Prop :=
  (∀ w i, decode w = .command i →
    i.row ∈ opcodeTable ∧ w &&& i.row.mask = i.row.pattern) ∧
  (∀ w row, row ∈ opcodeTable → w &&& row.mask = row.pattern →
    ∃ i, decode w = .command i ∧ i.row = row) ∧
  (∀ w r r', r ∈ opcodeTable → r' ∈ opcodeTable → w &&& r.mask = r.pattern →
    w &&& r'.mask = r'.pattern → r = r')

/-- R62, R63: the illegal words are those with OP 0x0 or 0x7..0xF, with a reserved bit set, with SEEDSEL set
for OP 0x1 to 0x3, or with NM1 or ABSENT set for OP 0x1 to 0x5. Writing one to CMD raises IllegalCommand.
The all-zeros word is one, so a CMD write of 0 runs no function. -/
def Obligations.IllegalWordsAreExactlyThese : Prop :=
  (∀ w : Word, (∀ i, decode w ≠ .command i) ↔
    ((w &&& 15#32).toNat = 0 ∨ 7 ≤ (w &&& 15#32).toNat ∨ w &&& 0xFF00F8E0#32 ≠ 0#32 ∨
      ((w &&& 15#32).toNat ≤ 3 ∧ w.getLsbD 4 = true) ∨
      ((w &&& 15#32).toNat ≤ 5 ∧ w &&& 0x00FF0700#32 ≠ 0#32))) ∧
  (∀ w s, (∀ i, decode w ≠ .command i) → runCommand w s = .next (raise .illegalCommand s)) ∧
  ∀ s, runCommand 0#32 s = .next (raise .illegalCommand s)

/-- Words written out bit by bit from R57's pattern and R58's OP values, one or more of each family, and
the command each stands for. -/
def Obligations.SampleWordsDecode : Prop :=
  decode 0b00000000000000000000000000000001#32 = .command .rotl32 ∧
    decode 0b00000000000000000000000000000010#32 = .command .mix2 ∧
    decode 0b00000000000000000000000000000011#32 = .command .mix3 ∧
    decode 0b00000000000000000000000000000100#32 = .command .m2h ∧
    decode 0b00000000000000000000000000010100#32 = .command .m2hS ∧
    decode 0b00000000000000000000000000000101#32 = .command .m3h ∧
    decode 0b00000000000000000000000000010101#32 = .command .m3hS ∧
    decode 0b00000000000000000000011100000110#32 = .command (.comb 8 0) ∧
    decode 0b00000000000000100000010000010110#32 = .command (.combS 5 2)

/-! ## Primitives -/

/-- rotl32 is the rotation by the count modulo 32, which for a count in 1..31 is the document's formula;
counts 0 and 32 give the value back. -/
def Obligations.RotateIsRotationByCountModThirtyTwo : Prop :=
  (∀ x c : Word, rotl32 x c = x.rotateLeft (c.toNat % 32)) ∧
    (∀ (x : Word) (c : Nat), 1 ≤ c → c ≤ 31 →
      rotl32 x (BitVec.ofNat 32 c) = BitVec.ofNat 32 (Reference.rotl x.toNat c)) ∧
    ∀ x : Word, rotl32 x 0#32 = x ∧ rotl32 x 32#32 = x

/-- R74: ROTL32 rotates OPA left by OPB modulo 32, under ROTL_OOB = mask for every count; under
ROTL_OOB = fault it does so for a count in 1..31 and faults otherwise. Its one word is 0x00000001. -/
def Obligations.RotateCommandResult : Prop :=
  (∀ s, (params.rotlOob = .mask ∨ (1 ≤ s.opb.toNat ∧ s.opb.toNat ≤ 31)) →
    exec .rotl32 s = .next (succeed (s.opa.rotateLeft (s.opb.toNat % 32)) s)) ∧
  (∀ s, rotateCommand .mask s = .next (succeed (s.opa.rotateLeft (s.opb.toNat % 32)) s)) ∧
  (∀ s, 1 ≤ s.opb.toNat → s.opb.toNat ≤ 31 →
    rotateCommand .fault s = .next (succeed (s.opa.rotateLeft s.opb.toNat) s)) ∧
  (∀ s, (s.opb.toNat = 0 ∨ 32 ≤ s.opb.toNat) →
    rotateCommand .fault s = .fault .rotateCountOutOfRange) ∧
  ∀ w, decode w = .command .rotl32 ↔ w = 1#32

/-- R75, R76: MIX2 completes in every state, with the finaliser on OPA. Its one word is 0x00000002. -/
def Obligations.Mix2Result : Prop :=
  (∀ s, exec .mix2 s =
    .next (succeed (BitVec.ofNat 32 (Reference.mixFinalMurmur2 s.opa.toNat)) s)) ∧
  ∀ w, decode w = .command .mix2 ↔ w = 2#32

/-- R77, R78: MIX3 completes in every state, with the finaliser on OPA. Its one word is 0x00000003. -/
def Obligations.Mix3Result : Prop :=
  (∀ s, exec .mix3 s =
    .next (succeed (BitVec.ofNat 32 (Reference.mixFinalMurmur3 s.opa.toNat)) s)) ∧
  ∀ w, decode w = .command .mix3 ↔ w = 3#32

/-- The pseudo-instruction ROTR32 rotates OPA right by the count it was given. -/
def Obligations.RotatePseudoInstructionRotatesRight : Prop :=
  params.rotlOob = .mask → ∀ s c rest, s.pending = rotr32 c ++ rest →
    ∃ t, runsTo 2 s t ∧ t.result = s.opa.rotateRight (c.toNat % 32) ∧ t.pending = rest ∧
      statusErr t.status = false

/-! ## MurmurHash2 -/

/-- R80 to R83 as functions: for both values of M2_TAIL3, every seed and every input, murmur2 is the spec's
pseudocode on offsets. -/
def Obligations.Murmur2FollowsPseudocode : Prop :=
  ∀ (tail3 : M2Tail3) (seed : Word) (data : List Byte),
    murmur2 tail3 seed data = BitVec.ofNat 32 (Reference.murmur2 tail3 seed.toNat data)

/-- M2H and M2H.S complete on every present, written buffer: RESULT is R83's hash of its bytes, with the
default seed and with SEED. -/
def Obligations.M2HResult : Prop :=
  ∀ s data, InputIs s data →
    exec .m2h s =
      .next (succeed (BitVec.ofNat 32 (Reference.murmur2 params.m2Tail3 0xc58f1a7b data)) s) ∧
    exec .m2hS s =
      .next (succeed (BitVec.ofNat 32 (Reference.murmur2 params.m2Tail3 s.seed.toNat data)) s)

/-- R86: the empty buffer hashes to 0 whatever the seed; the absent one raises NullInput. -/
def Obligations.M2HEmptyInputIsZero : Prop :=
  ∀ s, (s.bufCtrl.getLsbD 0 = true → s.bufLen = 0#32 →
      exec .m2h s = .next (succeed 0#32 s) ∧ exec .m2hS s = .next (succeed 0#32 s)) ∧
    (s.bufCtrl.getLsbD 0 = false →
      exec .m2h s = .next (raise .nullInput s) ∧ exec .m2hS s = .next (raise .nullInput s))

/-- M2_TAIL3 matters for lengths 4q+3 only. -/
def Obligations.TailParameterMattersOnlyForThreeByteTails : Prop :=
  ∀ (seed : Word) (data : List Byte), data.length % 4 ≠ 3 →
    murmur2 .double seed data = murmur2 .single seed data

/-! ## MurmurHash3 -/

/-- R88 to R91 as functions: for both values of M3_H1_INIT, every seed and every input, murmur3 is the spec's
pseudocode on offsets. -/
def Obligations.Murmur3FollowsPseudocode : Prop :=
  ∀ (init : M3H1Init) (seed : Word) (data : List Byte),
    murmur3 init seed data = BitVec.ofNat 32 (Reference.murmur3 init seed.toNat data)

/-- M3H and M3H.S complete on every present, written buffer: RESULT is R91's hash of its bytes, with the
default seed and with SEED. -/
def Obligations.M3HResult : Prop :=
  ∀ s data, InputIs s data →
    exec .m3h s =
      .next (succeed (BitVec.ofNat 32 (Reference.murmur3 params.m3H1Init 0xc58f1a7b data)) s) ∧
    exec .m3hS s =
      .next (succeed (BitVec.ofNat 32 (Reference.murmur3 params.m3H1Init s.seed.toNat data)) s)

/-- R95, R94: under M3_H1_INIT = zero the empty buffer gives 0 and the seed reaches no result, so M3H and
M3H.S agree in every state; under seed the empty buffer gives 0x821F9986 for the default seed. -/
def Obligations.M3HSeedAndEmptyInput : Prop :=
  (∀ (s1 s2 : Word) (data : List Byte), murmur3 .zero s1 data = murmur3 .zero s2 data) ∧
    (params.m3H1Init = .zero → ∀ s, exec .m3hS s = exec .m3h s) ∧
    (params.m3H1Init = .zero → ∀ s, s.bufCtrl.getLsbD 0 = true → s.bufLen = 0#32 →
      exec .m3h s = .next (succeed 0#32 s) ∧ exec .m3hS s = .next (succeed 0#32 s)) ∧
    (∀ seed, murmur3 .zero seed [] = 0#32) ∧ murmur3 .seed 0xc58f1a7b#32 [] = 0x821F9986#32 ∧
    ∀ s, s.bufCtrl.getLsbD 0 = false →
      exec .m3h s = .next (raise .nullInput s) ∧ exec .m3hS s = .next (raise .nullInput s)

/-! ## Combiner -/

/-- R96 to R104, R105, R106: COMB and COMB.S complete for every arity of 1..8, every ABSENT mask and every
buffer state; RESULT is the spec's combine of the component hashes, at seed 0 and at SEED. -/
def Obligations.CombinerResult : Prop :=
  ∀ s n absent, 1 ≤ n → n ≤ 8 →
    exec (.comb n absent) s =
      .next (succeed (BitVec.ofNat 32 (Reference.combine 0 n (componentNat s absent))) s) ∧
    exec (.combS n absent) s =
      .next (succeed (BitVec.ofNat 32 (Reference.combine s.seed.toNat n (componentNat s absent))) s)

/-- R61: an ABSENT bit below the arity makes the component hash 0 whatever HCk holds; ABSENT bits at and
above the arity change nothing, and no ABSENT bit raises an error. -/
def Obligations.AbsentMaskMeaning : Prop :=
  (∀ s n absent (k : Fin 8) (w : Word), k.val < n → absent.getLsbD k.val = true →
    componentHash s absent k = 0#32 ∧
      SameOutcome (exec (.comb n absent) s)
        (exec (.comb n absent) { s with hc := s.hc.set k w }) ∧
      SameOutcome (exec (.combS n absent) s)
        (exec (.combS n absent) { s with hc := s.hc.set k w })) ∧
  ∀ s n (absent absent' : BitVec 8),
    (∀ k, k < n → absent.getLsbD k = absent'.getLsbD k) →
    exec (.comb n absent) s = exec (.comb n absent') s ∧
      exec (.combS n absent) s = exec (.combS n absent') s ∧
      (1 ≤ n → n ≤ 8 → (∃ v, exec (.comb n absent') s = .next (succeed v s)) ∧
        ∃ v, exec (.combS n absent') s = .next (succeed v s))

/-- The combiner's i32 is the two's-complement reading of RESULT: in range, and the same bit pattern. -/
def Obligations.SignedResultKeepsThePattern : Prop :=
  ∀ v : Word, signed32 v = v.toInt ∧ -2147483648 ≤ signed32 v ∧ signed32 v ≤ 2147483647 ∧
    BitVec.ofInt 32 (signed32 v) = v

/-- R59: the seeded form takes its seed from SEED and the plain form the fixed default, so that with SEED at
the default the two give the same outcome. -/
def Obligations.ExplicitDefaultSeedGivesThePlainForm : Prop :=
  (∀ s, s.seed = 0xc58f1a7b#32 →
    exec .m2hS s = exec .m2h s ∧ exec .m3hS s = exec .m3h s) ∧
  ∀ s n absent, s.seed = 0#32 → exec (.combS n absent) s = exec (.comb n absent) s

/-! ## The bus and the host notation -/

/-- R47, R48, and BUF_BASE as log 3 reads it: with the window at an aligned REG_BASE and BUF mapped
elsewhere or nowhere, the aligned 32-bit access at REG_BASE + 4*i reaches register i, every other access in
the window is refused, and so is one outside both. -/
def Obligations.RegisterWindowMapping : Prop :=
  (∀ i : Fin 16, (Reg.ofIndex i).index = i.val) ∧ (∀ r : Reg, r.index < 16) ∧
  ∀ (base : Nat) (bufBase : Option Nat), base % 4 = 0 →
    (∀ addr, inWindow base addr = true → inBuf bufBase addr = false) →
    (∀ i : Fin 16, busTarget base bufBase (base + 4 * i.val) 4 = .reg (Reg.ofIndex i)) ∧
    (∀ addr width, base ≤ addr → addr < base + 64 → (width ≠ 4 ∨ addr % 4 ≠ 0) →
      busTarget base bufBase addr width = .refused .notAligned32) ∧
    (∀ addr width, (addr < base ∨ base + 64 ≤ addr) → inBuf bufBase addr = false →
      busTarget base bufBase addr width = .refused .outsideWindow)

/-- A bus write of four bytes to a register's address is the host write of the word with the first byte at
bits [7:0]; a bus read there is the host read; wherever BUF is mapped outside the window, or nowhere. -/
def Obligations.BusLanesAreLittleEndian : Prop :=
  ∀ (base : Nat) (bufBase : Option Nat) (i : Fin 16) (b0 b1 b2 b3 : Byte) (s : State), base % 4 = 0 →
    (∀ addr, inWindow base addr = true → inBuf bufBase addr = false) →
    busWrite base bufBase (base + 4 * i.val) [b0, b1, b2, b3] s =
      hostWrite (Reg.ofIndex i) (b3 ++ b2 ++ b1 ++ b0) s ∧
    busRead base bufBase (base + 4 * i.val) 4 s = hostRead (Reg.ofIndex i) s

/-- `ldbuf` leaves a present buffer of exactly its bytes, takes one step an access, and touches no register
but BUF_CTRL and BUF_LEN. It gives a line exactly for fewer than 2^32 bytes (I12, as log 14 reads it). -/
def Obligations.LdbufMakesTheInput : Prop :=
  (∀ bytes : List Byte, ldbuf bytes = none ↔ 4294967296 ≤ bytes.length) ∧
  ∀ (s : State) (bytes : List Byte) (line rest : List HostAccess), ldbuf bytes = some line →
    s.pending = line ++ rest →
    ∃ t, runsTo (bytes.length + 2) s t ∧ InputIs t bytes ∧ t.pending = rest ∧
      t.replies = s.replies ∧
      ∀ r, r ≠ .bufCtrl → r ≠ .bufLen → readReg t r = readReg s r

/-- `nullbuf` makes the buffer absent and `clrerr` clears ERRSEEN; neither changes anything else that a
command or a read depends on. -/
def Obligations.NullbufAndClrerrExpand : Prop :=
  (∀ s rest, s.pending = nullbuf ++ rest →
    ∃ t, runsTo 1 s t ∧ t.bufCtrl.getLsbD 0 = false ∧ t.pending = rest ∧
      (∀ r, r ≠ .bufCtrl → readReg t r = readReg s r) ∧ ∀ a, t.buf.read a = s.buf.read a) ∧
  ∀ s rest, s.pending = clrerr ++ rest →
    ∃ t, runsTo 1 s t ∧ statusErrSeen t.status = false ∧ statusDone t.status = statusDone s.status ∧
      statusErr t.status = statusErr s.status ∧ statusEcode t.status = statusEcode s.status ∧
      t.pending = rest ∧ (∀ r, r ≠ .status → readReg t r = readReg s r) ∧
      ∀ a, t.buf.read a = s.buf.read a

/-- A COMB or COMB.S line, its mnemonic in capitals, in small letters or in a mixture, assembles exactly
for n in 1..8 and an 8-bit mask, the mask 0 by default; NM1 = n - 1 in the word of either form. -/
def Obligations.CombinerLineAssembles : Prop :=
  ∀ (n m : Nat) (mnemonic : List Char),
    (mnemonic.map Char.toUpper = ['C', 'O', 'M', 'B'] →
      assemble { mnemonic := mnemonic, n := some n, absent := some m } =
          (if 1 ≤ n ∧ n ≤ 8 ∧ m < 256 then some (.comb n (BitVec.ofNat 8 m)) else none) ∧
        assemble { mnemonic := mnemonic, n := some n, absent := none } =
          (if 1 ≤ n ∧ n ≤ 8 then some (.comb n 0#8) else none)) ∧
    (mnemonic.map Char.toUpper = ['C', 'O', 'M', 'B', '.', 'S'] →
      assemble { mnemonic := mnemonic, n := some n, absent := some m } =
          (if 1 ≤ n ∧ n ≤ 8 ∧ m < 256 then some (.combS n (BitVec.ofNat 8 m)) else none) ∧
        assemble { mnemonic := mnemonic, n := some n, absent := none } =
          (if 1 ≤ n ∧ n ≤ 8 then some (.combS n 0#8) else none)) ∧
    (1 ≤ n → n ≤ 8 → ∀ absent : BitVec 8,
      (nm1Field (encode (.comb n absent))).toNat = n - 1 ∧
        (nm1Field (encode (.combS n absent))).toNat = n - 1)

/-- A byte written before the reset input holds no value after it: a hash command of a buffer with bytes
faults until the host writes them again (the model's reading of R125: log 7). -/
def Obligations.ResetLeavesNoUsableBufByte : Prop :=
  ∀ s rest, s.pending = .reset :: rest →
    ∃ t, step s = .next t ∧ t.pending = rest ∧ t.replies = s.replies ∧ (∀ a, t.buf.read a = none) ∧
      ∀ i (len : Word), isHash i = true → len ≠ 0#32 →
        exec i { t with bufCtrl := 1#32, bufLen := len } = .fault .bufByteUnwritten

/-- Bus accesses to a mapped BUF, as log 3 reads BUF_BASE: outside the register window a one-byte write at
BUF_BASE + off is the byte write at off, and every other access there is refused, a read of any width and a
write of any other; an address in both windows is refused whatever the access. -/
def Obligations.BufWindowMapping : Prop :=
  ∀ (regBase bufBase : Nat) (off : Word) (s : State),
    ((bufBase + off.toNat < regBase ∨ regBase + 64 ≤ bufBase + off.toNat) →
      (∀ b, busWrite regBase (some bufBase) (bufBase + off.toNat) [b] s = perform (.writeByte off b) s) ∧
      (∀ bytes : List Byte, bytes.length ≠ 1 →
        busWrite regBase (some bufBase) (bufBase + off.toNat) bytes s = .refused .bufNotByteWrite) ∧
      ∀ width, busRead regBase (some bufBase) (bufBase + off.toNat) width s =
        .refused .bufNotByteWrite) ∧
    ((regBase ≤ bufBase + off.toNat ∧ bufBase + off.toNat < regBase + 64) →
      (∀ bytes, busWrite regBase (some bufBase) (bufBase + off.toNat) bytes s =
        .refused .addressAmbiguous) ∧
      ∀ width, busRead regBase (some bufBase) (bufBase + off.toNat) width s =
        .refused .addressAmbiguous)

/-- R68's `wrb` line: its bytes land at off, off + 1, ..., one step a byte, and nothing else changes. A line
that would reach an offset of 2^32 gives no accesses (the model's choice: log 14). -/
def Obligations.WrbLineWritesItsBytes : Prop :=
  (∀ (off : Nat) (bytes : List Byte),
    hostWriteBytes off bytes = none ↔ 4294967296 < off + bytes.length) ∧
  ∀ (s : State) (off : Nat) (bytes : List Byte) (line rest : List HostAccess),
    hostWriteBytes off bytes = some line → s.pending = line ++ rest →
    ∃ t, runsTo bytes.length s t ∧ t.pending = rest ∧ t.replies = s.replies ∧
      (∀ r, readReg t r = readReg s r) ∧
      (∀ j (h : j < bytes.length), t.buf.read (off + j) = some bytes[j]) ∧
      ∀ a, (a < off ∨ off + bytes.length ≤ a) → t.buf.read a = s.buf.read a

/-- R68's `cmd` line: the line of a well-formed command runs that command, CMD holding its word. A term with
an arity outside 1..8 has no line (the model's reading of I11: log 13). -/
def Obligations.CmdLineRunsItsCommand : Prop :=
  (∀ i : Instr, hostCmd i = none ↔ i.wellFormed = false) ∧
  ∀ (i : Instr) (a : HostAccess) (s : State) (rest : List HostAccess), hostCmd i = some a →
    s.pending = a :: rest → step s = exec i { s with pending := rest, cmd := encode i }
end

