-- ==== Sys2Proof/Laws/State.lean ====
section
/-! SUPPORT. One lemma per field per update of State, true by definition, so that no proof unfolds a
record update. -/

namespace Sys2Proof.Machine

/-! ## succeed (R113) -/

@[simp] theorem succeed_cmd (v : Word) (s : State) : (succeed v s).cmd = s.cmd := rfl
@[simp] theorem succeed_status (v : Word) (s : State) : (succeed v s).status = statusOnSuccess s.status := rfl
@[simp] theorem succeed_result (v : Word) (s : State) : (succeed v s).result = v := rfl
@[simp] theorem succeed_opa (v : Word) (s : State) : (succeed v s).opa = s.opa := rfl
@[simp] theorem succeed_opb (v : Word) (s : State) : (succeed v s).opb = s.opb := rfl
@[simp] theorem succeed_seed (v : Word) (s : State) : (succeed v s).seed = s.seed := rfl
@[simp] theorem succeed_bufCtrl (v : Word) (s : State) : (succeed v s).bufCtrl = s.bufCtrl := rfl
@[simp] theorem succeed_bufLen (v : Word) (s : State) : (succeed v s).bufLen = s.bufLen := rfl
@[simp] theorem succeed_hc (v : Word) (s : State) : (succeed v s).hc = s.hc := rfl
@[simp] theorem succeed_buf (v : Word) (s : State) : (succeed v s).buf = s.buf := rfl
@[simp] theorem succeed_pending (v : Word) (s : State) : (succeed v s).pending = s.pending := rfl
@[simp] theorem succeed_replies (v : Word) (s : State) : (succeed v s).replies = s.replies := rfl

/-! ## raise (R112) -/

@[simp] theorem raise_cmd (e : ErrorKind) (s : State) : (raise e s).cmd = s.cmd := rfl
@[simp] theorem raise_status (e : ErrorKind) (s : State) : (raise e s).status = statusOnError e s.status := rfl
@[simp] theorem raise_result (e : ErrorKind) (s : State) : (raise e s).result = s.result := rfl
@[simp] theorem raise_opa (e : ErrorKind) (s : State) : (raise e s).opa = s.opa := rfl
@[simp] theorem raise_opb (e : ErrorKind) (s : State) : (raise e s).opb = s.opb := rfl
@[simp] theorem raise_seed (e : ErrorKind) (s : State) : (raise e s).seed = s.seed := rfl
@[simp] theorem raise_bufCtrl (e : ErrorKind) (s : State) : (raise e s).bufCtrl = s.bufCtrl := rfl
@[simp] theorem raise_bufLen (e : ErrorKind) (s : State) : (raise e s).bufLen = s.bufLen := rfl
@[simp] theorem raise_hc (e : ErrorKind) (s : State) : (raise e s).hc = s.hc := rfl
@[simp] theorem raise_buf (e : ErrorKind) (s : State) : (raise e s).buf = s.buf := rfl
@[simp] theorem raise_pending (e : ErrorKind) (s : State) : (raise e s).pending = s.pending := rfl
@[simp] theorem raise_replies (e : ErrorKind) (s : State) : (raise e s).replies = s.replies := rfl

/-! ## writeBuf (R49) -/

@[simp] theorem writeBuf_cmd (off : Word) (b : Byte) (s : State) : (writeBuf off b s).cmd = s.cmd := rfl
@[simp] theorem writeBuf_status (off : Word) (b : Byte) (s : State) : (writeBuf off b s).status = s.status := rfl
@[simp] theorem writeBuf_result (off : Word) (b : Byte) (s : State) : (writeBuf off b s).result = s.result := rfl
@[simp] theorem writeBuf_opa (off : Word) (b : Byte) (s : State) : (writeBuf off b s).opa = s.opa := rfl
@[simp] theorem writeBuf_opb (off : Word) (b : Byte) (s : State) : (writeBuf off b s).opb = s.opb := rfl
@[simp] theorem writeBuf_seed (off : Word) (b : Byte) (s : State) : (writeBuf off b s).seed = s.seed := rfl
@[simp] theorem writeBuf_bufCtrl (off : Word) (b : Byte) (s : State) : (writeBuf off b s).bufCtrl = s.bufCtrl := rfl
@[simp] theorem writeBuf_bufLen (off : Word) (b : Byte) (s : State) : (writeBuf off b s).bufLen = s.bufLen := rfl
@[simp] theorem writeBuf_hc (off : Word) (b : Byte) (s : State) : (writeBuf off b s).hc = s.hc := rfl
@[simp] theorem writeBuf_buf (off : Word) (b : Byte) (s : State) : (writeBuf off b s).buf = s.buf.write off.toNat b := rfl
@[simp] theorem writeBuf_pending (off : Word) (b : Byte) (s : State) : (writeBuf off b s).pending = s.pending := rfl
@[simp] theorem writeBuf_replies (off : Word) (b : Byte) (s : State) : (writeBuf off b s).replies = s.replies := rfl

/-! ## resetBlock (R123) -/

@[simp] theorem resetBlock_cmd (s : State) : (resetBlock s).cmd = 0#32 := rfl
@[simp] theorem resetBlock_status (s : State) : (resetBlock s).status = 0#32 := rfl
@[simp] theorem resetBlock_result (s : State) : (resetBlock s).result = 0#32 := rfl
@[simp] theorem resetBlock_opa (s : State) : (resetBlock s).opa = 0#32 := rfl
@[simp] theorem resetBlock_opb (s : State) : (resetBlock s).opb = 0#32 := rfl
@[simp] theorem resetBlock_seed (s : State) : (resetBlock s).seed = 0#32 := rfl
@[simp] theorem resetBlock_bufCtrl (s : State) : (resetBlock s).bufCtrl = 0#32 := rfl
@[simp] theorem resetBlock_bufLen (s : State) : (resetBlock s).bufLen = 0#32 := rfl
@[simp] theorem resetBlock_hc (s : State) : (resetBlock s).hc = Vector.replicate 8 0#32 := rfl
@[simp] theorem resetBlock_buf (s : State) : (resetBlock s).buf = [] := rfl
@[simp] theorem resetBlock_pending (s : State) : (resetBlock s).pending = s.pending := rfl
@[simp] theorem resetBlock_replies (s : State) : (resetBlock s).replies = s.replies := rfl

/-! ## State.reset (R123) -/

@[simp] theorem reset_cmd : (State.reset).cmd = 0#32 := rfl
@[simp] theorem reset_status : (State.reset).status = 0#32 := rfl
@[simp] theorem reset_result : (State.reset).result = 0#32 := rfl
@[simp] theorem reset_opa : (State.reset).opa = 0#32 := rfl
@[simp] theorem reset_opb : (State.reset).opb = 0#32 := rfl
@[simp] theorem reset_seed : (State.reset).seed = 0#32 := rfl
@[simp] theorem reset_bufCtrl : (State.reset).bufCtrl = 0#32 := rfl
@[simp] theorem reset_bufLen : (State.reset).bufLen = 0#32 := rfl
@[simp] theorem reset_hc : (State.reset).hc = Vector.replicate 8 0#32 := rfl
@[simp] theorem reset_buf : (State.reset).buf = [] := rfl
@[simp] theorem reset_pending : (State.reset).pending = [] := rfl
@[simp] theorem reset_replies : (State.reset).replies = [] := rfl

/-! ## State.withFetchWord -/

@[simp] theorem withFetchWord_cmd (s : State) (nbits w : Nat) : (s.withFetchWord nbits w).cmd = s.cmd := rfl
@[simp] theorem withFetchWord_status (s : State) (nbits w : Nat) : (s.withFetchWord nbits w).status = s.status := rfl
@[simp] theorem withFetchWord_result (s : State) (nbits w : Nat) : (s.withFetchWord nbits w).result = s.result := rfl
@[simp] theorem withFetchWord_opa (s : State) (nbits w : Nat) : (s.withFetchWord nbits w).opa = s.opa := rfl
@[simp] theorem withFetchWord_opb (s : State) (nbits w : Nat) : (s.withFetchWord nbits w).opb = s.opb := rfl
@[simp] theorem withFetchWord_seed (s : State) (nbits w : Nat) : (s.withFetchWord nbits w).seed = s.seed := rfl
@[simp] theorem withFetchWord_bufCtrl (s : State) (nbits w : Nat) : (s.withFetchWord nbits w).bufCtrl = s.bufCtrl := rfl
@[simp] theorem withFetchWord_bufLen (s : State) (nbits w : Nat) : (s.withFetchWord nbits w).bufLen = s.bufLen := rfl
@[simp] theorem withFetchWord_hc (s : State) (nbits w : Nat) : (s.withFetchWord nbits w).hc = s.hc := rfl
@[simp] theorem withFetchWord_buf (s : State) (nbits w : Nat) : (s.withFetchWord nbits w).buf = s.buf := rfl
@[simp] theorem withFetchWord_pending (s : State) (nbits w : Nat) : (s.withFetchWord nbits w).pending = .write .cmd (tableWord nbits w) :: s.pending := rfl
@[simp] theorem withFetchWord_replies (s : State) (nbits w : Nat) : (s.withFetchWord nbits w).replies = s.replies := rfl

/-! ## writeReg (R20): each register's write, then what no register write touches -/

@[simp] theorem writeReg_cmd (w : Word) (s : State) :
    writeReg .cmd w s = { s with cmd := w } := rfl
@[simp] theorem writeReg_status (w : Word) (s : State) :
    writeReg .status w s = { s with status := statusOnWrite w s.status } := rfl
@[simp] theorem writeReg_opa (w : Word) (s : State) :
    writeReg .opa w s = { s with opa := w } := rfl
@[simp] theorem writeReg_opb (w : Word) (s : State) :
    writeReg .opb w s = { s with opb := w } := rfl
@[simp] theorem writeReg_seed (w : Word) (s : State) :
    writeReg .seed w s = { s with seed := w } := rfl
@[simp] theorem writeReg_bufCtrl (w : Word) (s : State) :
    writeReg .bufCtrl w s = { s with bufCtrl := w &&& 1#32 } := rfl
@[simp] theorem writeReg_bufLen (w : Word) (s : State) :
    writeReg .bufLen w s = { s with bufLen := w } := rfl
@[simp] theorem writeReg_result (w : Word) (s : State) : writeReg .result w s = s := rfl
@[simp] theorem writeReg_hc (k : Fin 8) (w : Word) (s : State) :
    writeReg (.hc k) w s = { s with hc := s.hc.set k w } := rfl

@[simp] theorem writeReg_keeps_result (r : Reg) (w : Word) (s : State) :
    (writeReg r w s).result = s.result := by cases r <;> rfl
@[simp] theorem writeReg_keeps_buf (r : Reg) (w : Word) (s : State) :
    (writeReg r w s).buf = s.buf := by cases r <;> rfl
@[simp] theorem writeReg_keeps_pending (r : Reg) (w : Word) (s : State) :
    (writeReg r w s).pending = s.pending := by cases r <;> rfl
@[simp] theorem writeReg_keeps_replies (r : Reg) (w : Word) (s : State) :
    (writeReg r w s).replies = s.replies := by cases r <;> rfl

end Sys2Proof.Machine
end

