-- ==== Sys2Proof/Laws/Memory.lean ====
section
/-! SUPPORT. The laws of BUF: what a write leaves behind, and that the canonical form is kept. -/

namespace Sys2Proof.Machine

@[simp] theorem Memory.read_nil (a : Nat) : Memory.read [] a = none := rfl

theorem Memory.read_cons (c : Host.Cell) (rest : Memory) (a : Nat) :
    Memory.read (c :: rest) a = if a = c.1 then some c.2 else Memory.read rest a := by
  obtain ⟨k, v⟩ := c; rfl

/-- A read after a write: the written byte at its own offset, every other offset as before. -/
theorem Memory.read_write (m : Memory) (a a' : Nat) (b : Byte) :
    (m.write a b).read a' = if a' = a then some b else m.read a' := by
  induction m with
  | nil => simp [Memory.write, Memory.read]
  | cons c rest ih =>
    obtain ⟨k, v⟩ := c
    simp only [Memory.write]
    split
    · simp [Memory.read]
    · split
      · subst_vars
        simp only [Memory.read]
        split <;> simp_all
      · simp only [Memory.read, ih]
        split <;> split <;> simp_all

@[simp] theorem Memory.read_write_same (m : Memory) (a : Nat) (b : Byte) :
    (m.write a b).read a = some b := by simp [Memory.read_write]

theorem Memory.read_write_other (m : Memory) {a a' : Nat} (b : Byte) (h : a' ≠ a) :
    (m.write a b).read a' = m.read a' := by simp [Memory.read_write, h]

/-- Every address of a written list is an old one or the written one. -/
theorem Memory.mem_write {m : Memory} {a : Nat} {b : Byte} {c : Host.Cell} (h : c ∈ m.write a b) :
    c.1 = a ∨ c ∈ m := by
  induction m with
  | nil => simp_all [Memory.write]
  | cons d rest ih =>
    obtain ⟨k, v⟩ := d
    simp only [Memory.write] at h
    split at h
    · simp only [List.mem_cons] at h ⊢
      rcases h with rfl | h
      · exact .inl rfl
      · exact .inr h
    · split at h
      · simp only [List.mem_cons] at h ⊢
        rcases h with rfl | h
        · exact .inl rfl
        · exact .inr (.inr h)
      · simp only [List.mem_cons] at h ⊢
        rcases h with rfl | h
        · exact .inr (.inl rfl)
        · rcases ih h with h | h
          · exact .inl h
          · exact .inr (.inr h)

theorem Memory.wf_nil : Memory.wf [] := by decide

/-- A byte write inside BUF keeps the canonical form. -/
theorem Memory.wf_write {m : Memory} (h : m.wf) {a : Nat} (ha : a < 4294967296) (b : Byte) :
    (m.write a b).wf := by
  refine ⟨?_, fun c hc => (Memory.mem_write hc).elim (fun e => e ▸ ha) (h.2 c)⟩
  obtain ⟨hp, -⟩ := h
  induction m with
  | nil => simp [Memory.write]
  | cons d rest ih =>
    obtain ⟨k, v⟩ := d
    rw [List.pairwise_cons] at hp
    simp only [Memory.write]
    split
    · rename_i hlt
      refine List.pairwise_cons.2 ⟨fun c hc => ?_, List.pairwise_cons.2 hp⟩
      rcases List.mem_cons.1 hc with rfl | hc
      · exact hlt
      · exact Nat.lt_trans hlt (hp.1 c hc)
    · split
      · subst_vars
        exact List.pairwise_cons.2 hp
      · refine List.pairwise_cons.2 ⟨fun c hc => ?_, ih hp.2⟩
        rcases Memory.mem_write hc with e | hc
        · simp only [e]; omega
        · exact hp.1 c hc

/-- Every register write and byte write of the host, and reset, keeps the canonical form. -/
theorem writeBuf_wf {s : State} (h : s.buf.wf) (off : Word) (b : Byte) :
    (writeBuf off b s).buf.wf := Memory.wf_write h off.isLt b

theorem reset_buf_wf : State.reset.buf.wf := Memory.wf_nil

/-! ## readBytes -/

theorem Memory.readBytes_zero (m : Memory) (a : Nat) : m.readBytes a 0 = some [] := rfl

theorem Memory.readBytes_succ (m : Memory) (a n : Nat) :
    m.readBytes a (n + 1) =
      match m.read a with
      | none => none
      | some b => (m.readBytes (a + 1) n).map (b :: ·) := rfl

/-- `readBytes` answers `data` exactly when `data` is the bytes at the offsets a .. a+n-1. -/
theorem Memory.readBytes_eq_some (m : Memory) (a n : Nat) (data : List Byte) :
    m.readBytes a n = some data ↔
      data.length = n ∧ ∀ j (h : j < data.length), m.read (a + j) = some data[j] := by
  induction n generalizing a data with
  | zero =>
    rw [Memory.readBytes_zero]
    constructor
    · intro h; cases h; simp
    · rintro ⟨h, -⟩; rw [List.length_eq_zero_iff.1 h]
  | succ n ih =>
    rw [Memory.readBytes_succ]
    cases hr : m.read a with
    | none =>
      simp only [reduceCtorEq, false_iff, not_and]
      intro hl hj
      have := hj 0 (by omega)
      simp [hr] at this
    | some b =>
      simp only [Option.map_eq_some_iff]
      constructor
      · rintro ⟨d, hd, rfl⟩
        obtain ⟨hl, hj⟩ := (ih (a + 1) d).1 hd
        refine ⟨by simp [hl], fun j h => ?_⟩
        cases j with
        | zero => simpa using hr
        | succ j =>
          have := hj j (by simpa using h)
          rw [show a + (j + 1) = a + 1 + j by omega]
          simpa using this
      · rintro ⟨hl, hj⟩
        match data, hl, hj with
        | c :: d, hl, hj =>
          have h0 := hj 0 (by simp)
          simp only [Nat.add_zero, hr, List.getElem_cons_zero, Option.some.injEq] at h0
          subst h0
          refine ⟨d, (ih (a + 1) d).2 ⟨by simpa using hl, fun j h => ?_⟩, rfl⟩
          have := hj (j + 1) (by simpa using h)
          rw [show a + 1 + j = a + (j + 1) by omega]
          simpa using this

/-- `readBytes` answers nothing exactly when one of the bytes is unwritten. -/
theorem Memory.readBytes_eq_none (m : Memory) (a n : Nat) :
    m.readBytes a n = none ↔ ∃ j, j < n ∧ m.read (a + j) = none := by
  induction n generalizing a with
  | zero => simp [Memory.readBytes_zero]
  | succ n ih =>
    rw [Memory.readBytes_succ]
    cases hr : m.read a with
    | none => exact iff_of_true rfl ⟨0, by omega, by simpa using hr⟩
    | some b =>
      simp only [Option.map_eq_none_iff, ih]
      constructor
      · rintro ⟨j, hj, h⟩
        exact ⟨j + 1, by omega, by rw [← h]; congr 1; omega⟩
      · rintro ⟨j, hj, h⟩
        cases j with
        | zero => simp [hr] at h
        | succ j => exact ⟨j, by omega, by rw [← h]; congr 1; omega⟩

end Sys2Proof.Machine
end

