-- ==== Sys2Proof/Laws/Commands.lean ====
section
/-! SUPPORT. What each shared operation can do, said once: the input buffer, a hash command, a rotate, a
combine, any command, a word written to CMD, a host access, a step. -/

namespace Sys2Proof.Machine

/-! ## The input buffer -/

theorem inputBuffer_absent {s : State} : inputBuffer s = .absent ↔ bufValid s = false := by
  unfold inputBuffer
  cases bufValid s
  · simp
  · simp only [if_true]; split <;> simp

theorem inputBuffer_present {s : State} {data : List Byte} :
    inputBuffer s = .present data ↔
      bufValid s = true ∧ s.buf.readBytes 0 s.bufLen.toNat = some data := by
  unfold inputBuffer
  cases bufValid s
  · simp
  · simp only [if_true, true_and]; split <;> simp_all

theorem inputBuffer_unwritten {s : State} :
    inputBuffer s = .unwritten ↔
      bufValid s = true ∧ s.buf.readBytes 0 s.bufLen.toNat = none := by
  unfold inputBuffer
  cases bufValid s
  · simp
  · simp only [if_true, true_and]; split <;> simp_all

/-- A present, fully written buffer gives its bytes. -/
theorem inputBuffer_of_bytes {s : State} {data : List Byte} (hv : bufValid s = true)
    (hl : data.length = s.bufLen.toNat)
    (hb : ∀ j (h : j < data.length), s.buf.read j = some data[j]) :
    inputBuffer s = .present data :=
  inputBuffer_present.2 ⟨hv, (Memory.readBytes_eq_some _ _ _ _).2 ⟨hl, by simpa using hb⟩⟩

/-- A written input has bytes to give. -/
theorem exists_inputBuffer_present {s : State} (hv : bufValid s = true) (hw : s.inputWritten) :
    ∃ data, inputBuffer s = .present data := by
  cases hr : s.buf.readBytes 0 s.bufLen.toNat with
  | some data => exact ⟨data, inputBuffer_present.2 ⟨hv, hr⟩⟩
  | none =>
    obtain ⟨j, hj, hn⟩ := (Memory.readBytes_eq_none _ _ _).1 hr
    have := hw j hj
    simp_all

/-! ## Commands -/

theorem hashCommand_absent {s : State} (f : List Byte → Word) (h : bufValid s = false) :
    hashCommand f s = .next (raise .nullInput s) := by
  simp [hashCommand, inputBuffer_absent.2 h]

theorem hashCommand_present {s : State} (f : List Byte → Word) {data : List Byte}
    (h : inputBuffer s = .present data) : hashCommand f s = .next (succeed (f data) s) := by
  simp [hashCommand, h]

theorem hashCommand_unwritten {s : State} (f : List Byte → Word) (h : inputBuffer s = .unwritten) :
    hashCommand f s = .fault .bufByteUnwritten := by
  simp [hashCommand, h]

/-- The only next states of a hash command: NullInput on an absent buffer, or a result. -/
theorem hashCommand_next {f : List Byte → Word} {s t : State} (h : hashCommand f s = .next t) :
    (bufValid s = false ∧ t = raise .nullInput s) ∨
      ∃ data, inputBuffer s = .present data ∧ t = succeed (f data) s := by
  cases hi : inputBuffer s with
  | absent =>
    rw [hashCommand_absent f (inputBuffer_absent.1 hi)] at h
    cases h
    exact .inl ⟨inputBuffer_absent.1 hi, rfl⟩
  | unwritten => rw [hashCommand_unwritten f hi] at h; cases h
  | present data =>
    rw [hashCommand_present f hi] at h
    cases h
    exact .inr ⟨data, rfl, rfl⟩

theorem rotateCommand_next {oob : RotlOob} {s t : State} (h : rotateCommand oob s = .next t) :
    t = succeed (rotl32 s.opa s.opb) s := by
  cases oob with
  | mask => cases h; rfl
  | fault =>
    simp only [rotateCommand] at h
    split at h
    · cases h; rfl
    · cases h

theorem combCommand_next {seed : Word} {n : Nat} {absent : BitVec 8} {s t : State}
    (h : combCommand seed n absent s = .next t) :
    arityOk n = true ∧ t = succeed (combine seed n (componentHash s absent)) s := by
  unfold combCommand at h
  split at h
  · cases h; exact ⟨‹_›, rfl⟩
  · cases h

/-- The only next states of a command: it succeeds, or it is a hash command on an absent buffer. -/
theorem exec_next {i : Instr} {s t : State} (h : exec i s = .next t) :
    (∃ v, t = succeed v s) ∨ (isHash i = true ∧ bufValid s = false ∧ t = raise .nullInput s) := by
  cases i with
  | rotl32 => exact .inl ⟨_, rotateCommand_next (oob := params.rotlOob) h⟩
  | mix2 => cases h; exact .inl ⟨_, rfl⟩
  | mix3 => cases h; exact .inl ⟨_, rfl⟩
  | m2h =>
    exact (hashCommand_next h).symm.imp (fun ⟨_, _, e⟩ => ⟨_, e⟩) (fun ⟨a, b⟩ => ⟨rfl, a, b⟩)
  | m2hS =>
    exact (hashCommand_next h).symm.imp (fun ⟨_, _, e⟩ => ⟨_, e⟩) (fun ⟨a, b⟩ => ⟨rfl, a, b⟩)
  | m3h =>
    exact (hashCommand_next h).symm.imp (fun ⟨_, _, e⟩ => ⟨_, e⟩) (fun ⟨a, b⟩ => ⟨rfl, a, b⟩)
  | m3hS =>
    exact (hashCommand_next h).symm.imp (fun ⟨_, _, e⟩ => ⟨_, e⟩) (fun ⟨a, b⟩ => ⟨rfl, a, b⟩)
  | comb n absent => exact .inl ⟨_, (combCommand_next h).2⟩
  | combS n absent => exact .inl ⟨_, (combCommand_next h).2⟩

/-- A word written to CMD either succeeds or ends with one of the two errors. -/
theorem runCommand_next {w : Word} {s t : State} (h : runCommand w s = .next t) :
    (∃ v, t = succeed v s) ∨ ∃ e, t = raise e s := by
  unfold runCommand at h
  split at h
  · exact (exec_next h).imp_right fun ⟨_, _, e⟩ => ⟨_, e⟩
  · cases h; exact .inr ⟨_, rfl⟩

/-! ## Host accesses -/

/-- Everything a host access can do to the block when it goes on, `s` being the state with the access
taken off the pending list. -/
inductive AccessEffect (a : HostAccess) (s : State) : State → Prop where
  /-- A read: only the host learns something. -/
  | read (r : Reg) : a.registerWrite = none → AccessEffect a s { s with replies := s.replies ++ [readReg s r] }
  /-- A write of a register other than CMD. -/
  | write (r : Reg) (w : Word) : a.registerWrite = some (r, w) → r ≠ .cmd →
      AccessEffect a s (writeReg r w s)
  /-- A CMD write whose command succeeds. -/
  | success (w v : Word) : a.registerWrite = some (Reg.cmd, w) →
      AccessEffect a s (succeed v { s with cmd := w })
  /-- A CMD write whose command ends with an error. -/
  | error (w : Word) (e : ErrorKind) : a.registerWrite = some (Reg.cmd, w) →
      AccessEffect a s (raise e { s with cmd := w })
  /-- A byte written to BUF. -/
  | byte (off : Word) (b : Byte) : a.registerWrite = none → AccessEffect a s (writeBuf off b s)
  /-- Reset. -/
  | reset : a = .reset → AccessEffect a s (resetBlock s)

theorem hostRead_next {r : Reg} {s t : State} (h : hostRead r s = .next t) :
    showsReserved s r = false ∧ t = { s with replies := s.replies ++ [readReg s r] } := by
  unfold hostRead at h
  split at h
  · cases h
  · cases h; exact ⟨by simp_all, rfl⟩

theorem hostWrite_next {a : HostAccess} {r : Reg} {w : Word} {s t : State}
    (ha : a.registerWrite = some (r, w)) (h : hostWrite r w s = .next t) : AccessEffect a s t := by
  unfold hostWrite at h
  split at h
  · subst_vars
    rcases runCommand_next h with ⟨v, rfl⟩ | ⟨e, rfl⟩
    · exact .success w v ha
    · exact .error w e ha
  · cases h; exact .write r w ha ‹_›

theorem perform_next {a : HostAccess} {s t : State} (h : perform a s = .next t) :
    AccessEffect a s t := by
  cases a with
  | read r => rw [(hostRead_next h).2]; exact .read r rfl
  | write r w => exact hostWrite_next rfl h
  | writeByte off b => cases h; exact .byte off b rfl
  | reset => cases h; exact .reset rfl
  | busRead addr width =>
    simp only [perform, busRead] at h
    split at h
    · rw [(hostRead_next h).2]; exact .read _ rfl
    · cases h
    · cases h
  | busWrite addr bytes =>
    simp only [perform, busWrite] at h
    split at h
    · rename_i r hr
      exact hostWrite_next (by simp [HostAccess.registerWrite, hr]) h
    · rename_i off hr
      cases h; exact .byte _ _ (by simp [HostAccess.registerWrite, hr])
    · cases h

/-- A CMD write that goes on ends with a success or with an error. -/
theorem AccessEffect.of_isCommand {a : HostAccess} {s t : State} (h : AccessEffect a s t)
    (ha : a.isCommand) :
    ∃ w, (∃ v, t = succeed v { s with cmd := w }) ∨ ∃ e, t = raise e { s with cmd := w } := by
  obtain ⟨w, hw⟩ := ha
  cases h with
  | read r hr => rw [hw] at hr; cases hr
  | write r w' hr hne => rw [hw] at hr; cases hr; exact absurd rfl hne
  | success w' v hr => exact ⟨w', .inl ⟨v, rfl⟩⟩
  | error w' e hr => exact ⟨w', .inr ⟨e, rfl⟩⟩
  | byte off b hr => rw [hw] at hr; cases hr
  | reset hr => subst hr; cases hw

/-- Everything a step can do when it goes on: nothing, or the effect of the oldest pending access. -/
theorem step_next {s t : State} (h : step s = .next t) :
    (s.pending = [] ∧ t = s) ∨
      ∃ a rest, s.pending = a :: rest ∧ AccessEffect a { s with pending := rest } t := by
  unfold step hostStep at h
  split at h
  · cases h; exact .inl ⟨‹_›, rfl⟩
  · exact .inr ⟨_, _, ‹_›, perform_next h⟩

theorem step_idle {s : State} (h : s.pending = []) : step s = .next s := by
  simp [step, hostStep, h]

theorem step_cons {s : State} {a : HostAccess} {rest : List HostAccess} (h : s.pending = a :: rest) :
    step s = perform a { s with pending := rest } := by
  simp [step, hostStep, h]

end Sys2Proof.Machine
end

