-- ==== Sys2Proof/Laws/Decode.lean ====
section
/-! SUPPORT. The fields of a word that `cmd32` builds, and a word rebuilt from its fields. -/

namespace Sys2Proof

@[simp] theorem opField_cmd32 (op : BitVec 4) (sel : Bool) (nm1 : BitVec 3) (absent : BitVec 8) :
    opField (cmd32 op sel nm1 absent) = op := by
  apply BitVec.eq_of_getLsbD_eq
  intro j hj
  simp only [opField, cmd32, BitVec.getLsbD_extractLsb', BitVec.getLsbD_or, BitVec.getLsbD_setWidth,
    BitVec.getLsbD_shiftLeft]
  interval_cases j <;> simp

@[simp] theorem seedselField_cmd32 (op : BitVec 4) (sel : Bool) (nm1 : BitVec 3) (absent : BitVec 8) :
    seedselField (cmd32 op sel nm1 absent) = sel := by
  simp [seedselField, cmd32]

@[simp] theorem nm1Field_cmd32 (op : BitVec 4) (sel : Bool) (nm1 : BitVec 3) (absent : BitVec 8) :
    nm1Field (cmd32 op sel nm1 absent) = nm1 := by
  apply BitVec.eq_of_getLsbD_eq
  intro j hj
  simp only [nm1Field, cmd32, BitVec.getLsbD_extractLsb', BitVec.getLsbD_or, BitVec.getLsbD_setWidth,
    BitVec.getLsbD_shiftLeft]
  interval_cases j <;> simp

@[simp] theorem absentField_cmd32 (op : BitVec 4) (sel : Bool) (nm1 : BitVec 3) (absent : BitVec 8) :
    absentField (cmd32 op sel nm1 absent) = absent := by
  apply BitVec.eq_of_getLsbD_eq
  intro j hj
  simp only [absentField, cmd32, BitVec.getLsbD_extractLsb', BitVec.getLsbD_or,
    BitVec.getLsbD_setWidth, BitVec.getLsbD_shiftLeft]
  interval_cases j <;> simp

/-- `cmd32` sets no reserved bit. -/
@[simp] theorem reservedSet_cmd32 (op : BitVec 4) (sel : Bool) (nm1 : BitVec 3) (absent : BitVec 8) :
    reservedSet (cmd32 op sel nm1 absent) = false := by
  have h1 : (cmd32 op sel nm1 absent).extractLsb' 5 3 = 0#3 := by
    apply BitVec.eq_of_getLsbD_eq
    intro j hj
    simp only [cmd32, BitVec.getLsbD_extractLsb', BitVec.getLsbD_or, BitVec.getLsbD_setWidth,
      BitVec.getLsbD_shiftLeft]
    interval_cases j <;> simp
  have h2 : (cmd32 op sel nm1 absent).extractLsb' 11 5 = 0#5 := by
    apply BitVec.eq_of_getLsbD_eq
    intro j hj
    simp only [cmd32, BitVec.getLsbD_extractLsb', BitVec.getLsbD_or, BitVec.getLsbD_setWidth,
      BitVec.getLsbD_shiftLeft]
    interval_cases j <;> simp
  have h3 : (cmd32 op sel nm1 absent).extractLsb' 24 8 = 0#8 := by
    apply BitVec.eq_of_getLsbD_eq
    intro j hj
    simp only [cmd32, BitVec.getLsbD_extractLsb', BitVec.getLsbD_or, BitVec.getLsbD_setWidth,
      BitVec.getLsbD_shiftLeft]
    interval_cases j <;> simp
  simp [reservedSet, h1, h2, h3]

/-- A word with no reserved bit set is the word of its four fields. -/
theorem cmd32_of_fields {w : Word} (h : reservedSet w = false) :
    cmd32 (opField w) (seedselField w) (nm1Field w) (absentField w) = w := by
  simp only [reservedSet, Bool.or_eq_false_iff, bne_eq_false_iff_eq] at h
  obtain ⟨⟨h1, h2⟩, h3⟩ := h
  have e1 : ∀ j, j < 3 → w.getLsbD (5 + j) = false := fun j hj => by
    have := congrArg (BitVec.getLsbD · j) h1
    simpa [hj] using this
  have e2 : ∀ j, j < 5 → w.getLsbD (11 + j) = false := fun j hj => by
    have := congrArg (BitVec.getLsbD · j) h2
    simpa [hj] using this
  have e3 : ∀ j, j < 8 → w.getLsbD (24 + j) = false := fun j hj => by
    have := congrArg (BitVec.getLsbD · j) h3
    simpa [hj] using this
  apply BitVec.eq_of_getLsbD_eq
  intro j hj
  simp only [cmd32, opField, seedselField, nm1Field, absentField, BitVec.getLsbD_or,
    BitVec.getLsbD_setWidth, BitVec.getLsbD_shiftLeft, BitVec.getLsbD_extractLsb']
  have a0 := e1 0; have a1 := e1 1; have a2 := e1 2
  have b0 := e2 0; have b1 := e2 1; have b2 := e2 2; have b3 := e2 3; have b4 := e2 4
  have c0 := e3 0; have c1 := e3 1; have c2 := e3 2; have c3 := e3 3
  have c4 := e3 4; have c5 := e3 5; have c6 := e3 6; have c7 := e3 7
  interval_cases j <;> simp_all

/-! ## When each part of the decoder gives a command -/

theorem combFieldSet_eq_false (w : Word) :
    combFieldSet w = false ↔ nm1Field w = 0#3 ∧ absentField w = 0#8 := by
  simp only [combFieldSet, Bool.or_eq_false_iff, bne_eq_false_iff_eq]

theorem decodePrimitive_eq_command (w : Word) (i j : Instr) :
    decodePrimitive w i = .command j ↔
      seedselField w = false ∧ combFieldSet w = false ∧ j = i := by
  unfold decodePrimitive
  cases seedselField w <;> cases combFieldSet w <;> simp [eq_comm]

theorem decodeHash_eq_command (w : Word) (p q j : Instr) :
    decodeHash w p q = .command j ↔
      combFieldSet w = false ∧ j = if seedselField w then q else p := by
  unfold decodeHash
  cases combFieldSet w
  · simp only [Bool.false_eq_true, if_false, true_and, Decoded.command.injEq]
    exact eq_comm
  · simp

/-- COMB's arity is in range in every word. -/
theorem arityOk_nm1 (b : BitVec 3) : arityOk (b.toNat + 1) = true := by
  have := b.isLt
  simp [arityOk]; omega

end Sys2Proof
end

