-- ==== Sys2Proof/Laws/Flags.lean ====
section
/-! SUPPORT. What each STATUS field reads after a success, an error and a STATUS write. -/

namespace Sys2Proof.Machine

@[simp] theorem statusDone_onSuccess (st : Word) : statusDone (statusOnSuccess st) = true := by
  simp [statusDone, statusOnSuccess]

@[simp] theorem statusErr_onSuccess (st : Word) : statusErr (statusOnSuccess st) = false := by
  simp [statusErr, statusOnSuccess]

@[simp] theorem statusErrSeen_onSuccess (st : Word) :
    statusErrSeen (statusOnSuccess st) = statusErrSeen st := by
  simp [statusErrSeen, statusOnSuccess]

@[simp] theorem statusEcode_onSuccess (st : Word) : statusEcode (statusOnSuccess st) = 0#4 := by
  apply BitVec.eq_of_getLsbD_eq
  intro j hj
  simp only [statusEcode, statusOnSuccess, BitVec.getLsbD_extractLsb', BitVec.getLsbD_or,
    BitVec.getLsbD_and]
  interval_cases j <;> simp

@[simp] theorem statusReserved_onSuccess (st : Word) :
    statusReserved (statusOnSuccess st) = statusReserved st := by
  apply BitVec.eq_of_getLsbD_eq
  intro j hj
  simp only [statusReserved, statusOnSuccess, BitVec.getLsbD_or, BitVec.getLsbD_and]
  interval_cases j <;> simp

@[simp] theorem statusDone_onError (e : ErrorKind) (st : Word) :
    statusDone (statusOnError e st) = true := by
  simp [statusDone, statusOnError]

@[simp] theorem statusErr_onError (e : ErrorKind) (st : Word) :
    statusErr (statusOnError e st) = true := by
  simp [statusErr, statusOnError]

@[simp] theorem statusErrSeen_onError (e : ErrorKind) (st : Word) :
    statusErrSeen (statusOnError e st) = true := by
  simp [statusErrSeen, statusOnError]

@[simp] theorem statusEcode_onError (e : ErrorKind) (st : Word) :
    statusEcode (statusOnError e st) = e.ecode := by
  apply BitVec.eq_of_getLsbD_eq
  intro j hj
  simp only [statusEcode, statusOnError, BitVec.getLsbD_extractLsb', BitVec.getLsbD_or,
    BitVec.getLsbD_and]
  interval_cases j <;> cases e <;> simp [ErrorKind.ecode]

@[simp] theorem statusReserved_onError (e : ErrorKind) (st : Word) :
    statusReserved (statusOnError e st) = statusReserved st := by
  apply BitVec.eq_of_getLsbD_eq
  intro j hj
  simp only [statusReserved, statusOnError, BitVec.getLsbD_or, BitVec.getLsbD_and]
  interval_cases j <;> cases e <;> simp [ErrorKind.ecode]

@[simp] theorem statusDone_onWrite (w st : Word) : statusDone (statusOnWrite w st) = statusDone st := by
  unfold statusOnWrite; split <;> simp [statusDone]

@[simp] theorem statusErr_onWrite (w st : Word) : statusErr (statusOnWrite w st) = statusErr st := by
  unfold statusOnWrite; split <;> simp [statusErr]

@[simp] theorem statusErrSeen_onWrite (w st : Word) :
    statusErrSeen (statusOnWrite w st) = (statusErrSeen st && !(w.getLsbD 2)) := by
  unfold statusOnWrite; split <;> simp_all [statusErrSeen]

@[simp] theorem statusEcode_onWrite (w st : Word) :
    statusEcode (statusOnWrite w st) = statusEcode st := by
  unfold statusOnWrite
  split
  · apply BitVec.eq_of_getLsbD_eq
    intro j hj
    simp only [statusEcode, BitVec.getLsbD_extractLsb', BitVec.getLsbD_and]
    interval_cases j <;> simp
  · rfl

@[simp] theorem statusReserved_onWrite (w st : Word) :
    statusReserved (statusOnWrite w st) = statusReserved st := by
  unfold statusOnWrite
  split
  · apply BitVec.eq_of_getLsbD_eq
    intro j hj
    simp only [statusReserved, BitVec.getLsbD_and]
    interval_cases j <;> simp
  · rfl

/-- R108: the codes are 1 and 2. -/
theorem ErrorKind.ecode_cases (e : ErrorKind) : e.ecode = 1#4 ∨ e.ecode = 2#4 := by
  cases e <;> simp [ErrorKind.ecode]

end Sys2Proof.Machine
end

