-- ==== Sys2Proof/Laws/PerInstr.lean ====
section
/-! SUPPORT. Per-instruction families. EncodeRow: the word that `encode` writes for a well-formed command
matches its row of spec/opcode_table.json. -/

namespace Sys2Proof.Laws

/-- The encoded word of a well-formed command matches that command's row (mask and pattern, R65). -/
def EncodeRow.Statement (i : Instr) : Prop :=
  i.wellFormed = true → encode i &&& i.row.mask = i.row.pattern

theorem EncodeRow.rotl32 : EncodeRow.Statement .rotl32 := fun _ => by decide
theorem EncodeRow.mix2 : EncodeRow.Statement .mix2 := fun _ => by decide
theorem EncodeRow.mix3 : EncodeRow.Statement .mix3 := fun _ => by decide
theorem EncodeRow.m2h : EncodeRow.Statement .m2h := fun _ => by decide
theorem EncodeRow.m2hS : EncodeRow.Statement .m2hS := fun _ => by decide
theorem EncodeRow.m3h : EncodeRow.Statement .m3h := fun _ => by decide
theorem EncodeRow.m3hS : EncodeRow.Statement .m3hS := fun _ => by decide

/-- The bits that COMB's mask selects are the fixed ones, whatever NM1 and ABSENT hold. -/
theorem cmd32_comb_masked (sel : Bool) (nm1 : BitVec 3) (absent : BitVec 8) :
    cmd32 6 sel nm1 absent &&& 0xFF00F8FF#32 = cmd32 6 sel 0 0 := by
  apply BitVec.eq_of_getLsbD_eq
  intro j hj
  simp only [cmd32, BitVec.getLsbD_and, BitVec.getLsbD_or, BitVec.getLsbD_setWidth,
    BitVec.getLsbD_shiftLeft]
  interval_cases j <;> simp [BitVec.getLsbD_of_ge]

theorem EncodeRow.comb (n : Nat) (absent : BitVec 8) : EncodeRow.Statement (.comb n absent) := fun _ =>
  (cmd32_comb_masked false _ _).trans rfl

theorem EncodeRow.combS (n : Nat) (absent : BitVec 8) : EncodeRow.Statement (.combS n absent) :=
  fun _ => (cmd32_comb_masked true _ _).trans rfl

end Sys2Proof.Laws
end

