-- ==== Sys2Proof/Laws/Reference.lean ====
section
/-! SUPPORT. Between the model's 32-bit words and the natural numbers of `Sys2Proof.Reference`: one lemma
per operation (spec 00_scope.md R11, R12, R15), to be rewritten with rather than unfolded. -/

namespace Sys2Proof.Machine

theorem toNat_mul_wrap (x y : Word) : (x * y).toNat = Reference.wrap (x.toNat * y.toNat) :=
  BitVec.toNat_mul x y

theorem toNat_add_wrap (x y : Word) : (x + y).toNat = Reference.wrap (x.toNat + y.toNat) :=
  BitVec.toNat_add x y

theorem toNat_shr (x : Word) (n : Nat) : (x >>> n).toNat = Reference.shr x.toNat n := by
  rw [BitVec.toNat_ushiftRight, Nat.shiftRight_eq_div_pow]; rfl

theorem toNat_shl (x : Word) (n : Nat) : (x <<< n).toNat = Reference.shl x.toNat n := by
  rw [BitVec.toNat_shiftLeft, Nat.shiftLeft_eq]; rfl

theorem toNat_literal (n : Nat) (h : n < 4294967296) : (BitVec.ofNat 32 n).toNat = n := by
  rw [BitVec.toNat_ofNat]; exact Nat.mod_eq_of_lt h

theorem eq_ofNat_of_toNat {x : Word} {n : Nat} (h : x.toNat = n) : x = BitVec.ofNat 32 n := by
  rw [← h]; simp

theorem toNat_zext32 (b : Byte) : (zext32 b).toNat = b.toNat := by
  have := b.isLt
  simp [zext32]; omega

/-- Four bytes assembled little-endian, as a word. -/
theorem littleEndian_four (b0 b1 b2 b3 : Byte) :
    littleEndian [b0, b1, b2, b3] = b3 ++ b2 ++ b1 ++ b0 := by
  apply BitVec.eq_of_getLsbD_eq
  intro j hj
  simp only [littleEndian, zext32, BitVec.getLsbD_or, BitVec.getLsbD_shiftLeft,
    BitVec.getLsbD_setWidth, BitVec.getLsbD_append]
  interval_cases j <;> simp [BitVec.getLsbD_of_ge]

/-- Four bytes assembled little-endian, as a number. -/
theorem toNat_littleEndian_four (b0 b1 b2 b3 : Byte) :
    (littleEndian [b0, b1, b2, b3]).toNat =
      b0.toNat + b1.toNat * 256 + b2.toNat * 65536 + b3.toNat * 16777216 := by
  have append_byte : ∀ (w : Nat) (x : BitVec w) (b : Byte),
      (x ++ b).toNat = x.toNat * 256 + b.toNat := by
    intro w x b
    rw [BitVec.toNat_append, ← Nat.shiftLeft_add_eq_or_of_lt b.isLt, Nat.shiftLeft_eq]
  rw [littleEndian_four]
  simp only [append_byte]
  omega

theorem byteAt_lt (data : List Byte) (a : Nat) : Reference.byteAt data a < 256 := (data.getD a 0).isLt

/-- R15's sum, term by term, for a 4-byte block. -/
theorem memRead_four (data : List Byte) (a : Nat) :
    Reference.memRead data a 4 =
      Reference.byteAt data a + Reference.byteAt data (a + 1) * 256 +
        Reference.byteAt data (a + 2) * 65536 + Reference.byteAt data (a + 3) * 16777216 := by
  have sum_four : ∀ f : Nat → Nat, ((List.range 4).map f).sum = f 0 + (f 1 + (f 2 + (f 3 + 0))) :=
    fun _ => rfl
  have shifted : ∀ b k c, b < 256 → c ≤ 16777216 → 2 ^ k = c → Reference.shl b k = b * c := by
    intro b k c hb hc hk
    unfold Reference.shl Reference.wrap
    rw [hk]
    apply Nat.mod_eq_of_lt
    calc b * c ≤ 255 * 16777216 := Nat.mul_le_mul (by omega) hc
      _ < 4294967296 := by norm_num
  unfold Reference.memRead
  rw [sum_four, Nat.add_zero a,
    shifted _ (8 * 0) 1 (byteAt_lt data a) (by omega) (by norm_num),
    shifted _ (8 * 1) 256 (byteAt_lt data (a + 1)) (by omega) (by norm_num),
    shifted _ (8 * 2) 65536 (byteAt_lt data (a + 2)) (by omega) (by norm_num),
    shifted _ (8 * 3) 16777216 (byteAt_lt data (a + 3)) (by omega) (by norm_num)]
  omega

/-- The block step of the input walk. -/
theorem foldInput_block (block : Word → Word → Word) (tail : Word → List Byte → Word) (h : Word)
    (b0 b1 b2 b3 : Byte) (rest : List Byte) :
    foldInput block tail h (b0 :: b1 :: b2 :: b3 :: rest) =
      foldInput block tail (block h (littleEndian [b0, b1, b2, b3])) rest := rfl

/-- The walk over fewer than four bytes is the tail. -/
theorem foldInput_short (block : Word → Word → Word) (tail : Word → List Byte → Word) (h : Word)
    {data : List Byte} (hl : data.length < 4) : foldInput block tail h data = tail h data := by
  rcases data with _ | ⟨a, _ | ⟨b, _ | ⟨c, _ | ⟨d, rest⟩⟩⟩⟩ <;> first | rfl | (simp at hl; omega)

end Sys2Proof.Machine
end

