-- ==== Sys2Proof/Laws/Runs.lean ====
section
/-! SUPPORT. Runs of steps, what does not depend on the host's own side of the state, and when a line of
the host notation gives accesses. -/

namespace Sys2Proof.Machine

theorem runsTo_zero (s t : State) : runsTo 0 s t ↔ s = t := by
  simp only [runsTo, Host.Core.run]
  exact ⟨fun h => by cases h; rfl, fun h => by rw [h]⟩

theorem runsTo_succ (k : Nat) (s t : State) :
    runsTo (k + 1) s t ↔ ∃ u, step s = .next u ∧ runsTo k u t := by
  simp only [runsTo, Host.Core.run]
  constructor
  · intro h
    cases hs : core.step s with
    | next u => rw [hs] at h; exact ⟨u, hs, h⟩
    | fault => rw [hs] at h; cases h
    | refused => rw [hs] at h; cases h
  · rintro ⟨u, hu, h⟩
    have hu : core.step s = .next u := hu
    rw [hu]; exact h

/-- One run from a state ends in one state. -/
theorem runsTo_unique {k : Nat} {s t u : State} (ht : runsTo k s t) (hu : runsTo k s u) : t = u := by
  simp only [runsTo] at ht hu
  rw [ht] at hu
  cases hu; rfl

theorem AccessEffect.pending {a : HostAccess} {s t : State} (h : AccessEffect a s t) :
    t.pending = s.pending := by cases h <;> simp

/-- A step takes the oldest access off the pending list. -/
theorem step_pending {s t : State} (h : step s = .next t) : t.pending = s.pending.tail := by
  rcases step_next h with ⟨hp, rfl⟩ | ⟨a, rest, hp, he⟩
  · simp [hp]
  · rw [he.pending, hp]; rfl

/-- Two runs, one behind the other. -/
theorem runsTo_add {j k : Nat} {s u t : State} (h : runsTo j s u) (h' : runsTo k u t) :
    runsTo (j + k) s t := by
  induction j generalizing s with
  | zero => rw [runsTo_zero] at h; subst h; simpa using h'
  | succ j ih =>
    obtain ⟨v, hv, h⟩ := (runsTo_succ _ _ _).1 h
    rw [show j + 1 + k = (j + k) + 1 by omega]
    exact (runsTo_succ _ _ _).2 ⟨v, hv, ih h⟩

/-! ## Lines of the host notation -/

theorem hostCmd_eq_some {i : Instr} {a : HostAccess} :
    hostCmd i = some a ↔ i.wellFormed = true ∧ a = .write .cmd (encode i) := by
  unfold hostCmd
  split <;> simp_all [eq_comm (b := a)]

theorem hostCmd_eq_none {i : Instr} : hostCmd i = none ↔ i.wellFormed = false := by simp [hostCmd]

theorem hostWriteBytes_eq_some {off : Nat} {bytes : List Byte} {l : List HostAccess} :
    hostWriteBytes off bytes = some l ↔
      off + bytes.length ≤ 4294967296 ∧ l = byteWrites off bytes := by
  unfold hostWriteBytes
  split
  · simp_all [eq_comm (b := l)]
  · exact ⟨fun h => (by cases h), fun h => absurd h.1 ‹_›⟩

theorem hostWriteBytes_eq_none {off : Nat} {bytes : List Byte} :
    hostWriteBytes off bytes = none ↔ 4294967296 < off + bytes.length := by simp [hostWriteBytes]

theorem ldbuf_eq_some {bytes : List Byte} {l : List HostAccess} :
    ldbuf bytes = some l ↔ bytes.length < 4294967296 ∧
      l = byteWrites 0 bytes ++
        [.write .bufLen (BitVec.ofNat 32 bytes.length), .write .bufCtrl 1#32] := by
  unfold ldbuf
  split
  · simp_all [eq_comm (b := l)]
  · exact ⟨fun h => (by cases h), fun h => absurd h.1 ‹_›⟩

theorem ldbuf_eq_none {bytes : List Byte} : ldbuf bytes = none ↔ 4294967296 ≤ bytes.length := by
  simp [ldbuf]

/-- `ldbuf` is the `wrb` line at offset 0 and two register writes (R69). -/
theorem ldbuf_eq_hostWriteBytes {bytes : List Byte} (h : bytes.length < 4294967296) :
    ldbuf bytes = (hostWriteBytes 0 bytes).map
      (· ++ [.write .bufLen (BitVec.ofNat 32 bytes.length), .write .bufCtrl 1#32]) := by
  have h' : 0 + bytes.length ≤ 4294967296 := by omega
  simp only [ldbuf, hostWriteBytes, if_pos h, if_pos h', Option.map_some]

/-- A legal state stays legal whatever the host still asks and has read. -/
theorem State.Legal.hostSide {s : State} (h : s.Legal) (p : List HostAccess) (r : List Word) :
    State.Legal { s with pending := p, replies := r } :=
  ⟨h.1, h.2, h.3, h.4, h.5, h.6, h.7, h.8⟩

/-- In a legal state no register shows a reserved value. -/
theorem showsReserved_legal {s : State} (h : s.Legal) (r : Reg) : showsReserved s r = false := by
  cases r <;> simp [showsReserved, h.status_reserved, h.bufCtrl_reserved]
  exact Nat.lt_of_le_of_lt h.ecode_le (by decide)

end Sys2Proof.Machine
end

