-- ==== Sys2Proof/Tests/Slice0.lean ====
section
/-! SUPPORT. The model's own tests: the smoke test of WellFormed, decoding of words written out from spec
30_encoding.md R57 and R58 (95_test_vectors.md D-ENC), one or two vectors a command
(95_test_vectors.md), and the host accesses. Every expected value is the spec's. -/

namespace Sys2Proof.Tests

open Sys2Proof.Machine

/-! ## Helpers -/

/-- RESULT after a step that answers a next state. -/
def resultOf : Host.Outcome State Fault Refusal → Option Word
  | .next t => some t.result
  | .fault _ => none
  | .refused _ => none

/-- STATUS after a step that answers a next state. -/
def statusOf : Host.Outcome State Fault Refusal → Option Word
  | .next t => some t.status
  | .fault _ => none
  | .refused _ => none

/-- The fault of a step that stops with one. -/
def faultOf : Host.Outcome State Fault Refusal → Option Fault
  | .next _ => none
  | .fault f => some f
  | .refused _ => none

/-- The refusal of a step that is turned away. -/
def refusalOf : Host.Outcome State Fault Refusal → Option Refusal
  | .next _ => none
  | .fault _ => none
  | .refused r => some r

/-- BUF holding these bytes from an offset on. -/
def memFrom (a : Nat) : List Byte → Memory
  | [] => []
  | b :: rest => (a, b) :: memFrom (a + 1) rest

/-- Reset, with a present buffer of these bytes and this SEED. -/
def withInput (seed : Word) (bytes : List Byte) : State :=
  { State.reset with
    seed := seed, bufCtrl := 1, bufLen := BitVec.ofNat 32 bytes.length, buf := memFrom 0 bytes }

/-- Reset, with these OPA and OPB. -/
def withOps (opa opb : Word) : State := { State.reset with opa := opa, opb := opb }

/-- Reset, with SEED and HC0..HC7. -/
def withHc (seed : Word) (hc : Vector Word 8) : State := { State.reset with seed := seed, hc := hc }

/-! ## WellFormed -/

theorem test_wf_comb_arity_zero_refused : (Instr.comb 0 0).wellFormed = false := by decide
theorem test_wf_comb_arity_nine_refused : (Instr.comb 9 0).wellFormed = false := by decide
theorem test_wf_combS_arity_zero_refused : (Instr.combS 0 0).wellFormed = false := by decide
theorem test_wf_combS_arity_nine_refused : (Instr.combS 9 255).wellFormed = false := by decide
theorem test_exec_comb_arity_nine_refused :
    refusalOf (exec (.comb 9 0) State.reset) = some .combArityOutOfRange := by decide

/-! ## Decoding: words from R57's pattern 00000000 AAAAAAAA 00000 NNN 000 S OOOO -/

theorem test_decode_rotl32 : decode 0b00000000000000000000000000000001#32 = .command .rotl32 := by decide
theorem test_decode_mix2 : decode 0b00000000000000000000000000000010#32 = .command .mix2 := by decide
theorem test_decode_mix3 : decode 0b00000000000000000000000000000011#32 = .command .mix3 := by decide
theorem test_decode_m2h : decode 0b00000000000000000000000000000100#32 = .command .m2h := by decide
theorem test_decode_m2hS : decode 0b00000000000000000000000000010100#32 = .command .m2hS := by decide
theorem test_decode_m3h : decode 0b00000000000000000000000000000101#32 = .command .m3h := by decide
theorem test_decode_m3hS : decode 0b00000000000000000000000000010101#32 = .command .m3hS := by decide
theorem test_decode_comb_eight : decode 0b00000000000000000000011100000110#32 = .command (.comb 8 0) := by
  decide
theorem test_decode_combS_five : decode 0b00000000000000100000010000010110#32 = .command (.combS 5 2) := by
  decide
theorem test_decode_comb_absent_all :
    decode 0b00000000111111110000000000000110#32 = .command (.comb 1 255) := by decide

theorem test_decode_zero_illegal : decode 0x00000000#32 = .illegal .illegalOp := by decide
theorem test_decode_rotl32_seedsel_illegal : decode 0x00000011#32 = .illegal .unusedFieldSet := by decide
theorem test_decode_bit5_illegal : decode 0x00000021#32 = .illegal .reservedBitSet := by decide
theorem test_decode_m2h_nm1_illegal : decode 0x00000104#32 = .illegal .unusedFieldSet := by decide
theorem test_decode_m3h_absent_illegal : decode 0x00010005#32 = .illegal .unusedFieldSet := by decide
theorem test_decode_bit11_illegal : decode 0x00000806#32 = .illegal .reservedBitSet := by decide
theorem test_decode_bit24_illegal : decode 0x01000006#32 = .illegal .reservedBitSet := by decide
theorem test_decode_op7_illegal : decode 0x00000007#32 = .illegal .illegalOp := by decide
theorem test_decode_op15_illegal : decode 0x0000000F#32 = .illegal .illegalOp := by decide

theorem test_decodeTableWord_combS : decodeTableWord 32 0x00020416 = some (.combS 5 2) := by decide
theorem test_withFetchWord_runs_word :
    statusOf (step (State.reset.withFetchWord 32 0x00000004)) = some 0x17#32 := by decide

/-! ## Primitives (D-PRIM) -/

theorem test_rotl32_nibble : resultOf (exec .rotl32 (withOps 0x12345678 4)) = some 0x23456781#32 := by
  decide
theorem test_rotl32_count_minus_one :
    resultOf (exec .rotl32 (withOps 0x12345678 0xFFFFFFFF)) = some 0x091A2B3C#32 := by decide
theorem test_rotateCommand_fault_count_zero :
    faultOf (rotateCommand .fault (withOps 0x12345678 0)) = some .rotateCountOutOfRange := by decide
theorem test_mix2_example : resultOf (exec .mix2 (withOps 0x12345678 0)) = some 0x499728CD#32 := by
  decide
theorem test_mix2_all_ones : resultOf (exec .mix2 (withOps 0xFFFFFFFF 0)) = some 0xB35966B0#32 := by
  decide
theorem test_mix3_example : resultOf (exec .mix3 (withOps 0x12345678 0)) = some 0xE37CD1BC#32 := by
  decide
theorem test_mix3_top_bit : resultOf (exec .mix3 (withOps 0x80000000 0)) = some 0x6D3C65A0#32 := by
  decide

/-! ## MurmurHash2 (D-M2, V-L2, V-L3) -/

theorem test_m2h_oliviann :
    resultOf (exec .m2h (withInput 0 [0x4F, 0x6C, 0x69, 0x76, 0x69, 0x61, 0x6E, 0x6E, 0x24, 0x25, 0x5E,
      0x49, 0x32, 0x33, 0x34, 0x35, 0x36, 0x37, 0x38, 0x39, 0x4F])) = some 0x89899D26#32 := by decide
theorem test_m2h_three_byte_tail :
    resultOf (exec .m2h (withInput 0 [0x61, 0x62, 0x63, 0x64, 0x65, 0x66, 0x67])) =
      some 0xFB51C552#32 := by decide
theorem test_m2h_two_byte_tail :
    resultOf (exec .m2h (withInput 0 [0x61, 0x62])) = some 0x04350A3B#32 := by decide
theorem test_murmur2_single :
    murmur2 .single 0#32 [0x61, 0x62, 0x63] = 0x13577C9B#32 := by decide
theorem test_m2hS_seed_zero :
    resultOf (exec .m2hS (withInput 0 [0x61, 0x62, 0x63, 0x64])) = some 0x26873021#32 := by decide
theorem test_m2hS_imis :
    resultOf (exec .m2hS (withInput 0 [0x69, 0x6D, 0x69, 0x73, 0x31, 0x32, 0x33, 0x34, 0x35])) =
      some 0xA886578A#32 := by decide

/-! ## MurmurHash3 (D-M3) -/

theorem test_m3h_seven :
    resultOf (exec .m3h (withInput 0 [0x61, 0x62, 0x63, 0x64, 0x65, 0x66, 0x67])) =
      some 0x883C9B06#32 := by decide
theorem test_m3h_high_byte : resultOf (exec .m3h (withInput 0 [0xFF])) = some 0xFD6CF10D#32 := by decide
theorem test_m3hS_hello :
    resultOf (exec .m3hS (withInput 0x1234 [0x68, 0x65, 0x6C, 0x6C, 0x6F])) = some 0x248BFA47#32 := by
  decide
theorem test_m3hS_unwritten_faults :
    faultOf (exec .m3hS { withInput 0 [0x61] with bufLen := 0xFFFFFFFF }) = some .bufByteUnwritten := by
  decide
theorem test_murmur3_seed_reading :
    murmur3 .seed hashDefaultSeed [0x61, 0x62, 0x63, 0x64, 0x65, 0x66] = 0x8B5C57CF#32 := by decide

/-! ## Combiner (D-COMB) -/

theorem test_comb_three :
    resultOf (exec (.comb 3 0) (withHc 0 #v[1, 2, 3, 4, 5, 6, 7, 8])) = some 0x1F578C88#32 := by decide
theorem test_comb_seven :
    resultOf (exec (.comb 7 0) (withHc 0 #v[1, 2, 3, 4, 5, 6, 7, 8])) = some 0x32B85A8B#32 := by decide
theorem test_combS_eight :
    resultOf (exec (.combS 8 0) (withHc 5 #v[1, 2, 3, 4, 5, 6, 7, 8])) = some 0xD4A53085#32 := by decide
theorem test_combS_absent :
    resultOf (exec (.combS 5 2) (withHc 17 #v[1, 0xDEADBEEF, 3, 4, 5, 0, 0, 0])) =
      some 0x5D2C9726#32 := by decide
theorem test_signed32_negative : signed32 0xF3BB7693#32 = -205818221 := by decide

/-! ## STATUS, errors and host accesses (D-ERR, P4) -/

theorem test_success_keeps_errSeen : statusOnSuccess 0x17#32 = 0x05#32 := by decide
theorem test_status_write_clears_errSeen : statusOnWrite 0xFFFFFFFF#32 0x05#32 = 0x01#32 := by decide
theorem test_illegal_beats_nullInput :
    statusOf (hostWrite .cmd 0x25#32 State.reset) = some 0x27#32 := by decide
theorem test_bufCtrl_keeps_bit0 :
    (writeReg .bufCtrl 0xFFFFFFFF#32 State.reset).bufCtrl = 1#32 := by decide
theorem test_read_status_reserved_faults :
    faultOf (hostRead .status { State.reset with status := 0x31 }) = some .reservedBitsSeen := by decide
theorem test_bus_write_reaches_opa :
    busTarget 0x4000 none 0x400C 4 = .reg .opa := by decide
theorem test_bus_write_lanes : littleEndian [0x78, 0x56, 0x34, 0x12] = 0x12345678#32 := by decide
theorem test_bus_halfword_refused : busTarget 0x4000 none 0x400C 2 = .refused .notAligned32 := by decide
theorem test_bus_outside_refused : busTarget 0x4000 none 0x4040 4 = .refused .outsideWindow := by decide
theorem test_bus_buf_byte : busTarget 0x4000 (some 0x8000) 0x8003 1 = .buf 3 := by decide
theorem test_assemble_comb_case :
    assemble { mnemonic := ['c', 'O', 'm', 'b', '.', 's'], n := some 5, absent := some 2 } =
      some (.combS 5 2) := by decide

/-! ## Witnesses: for each statement with hypotheses, a state and operands that meet them all -/

/-- A legal state in which commands have run: STATUS shows an earlier NullInput, BUF holds "abc" and is
present, and these accesses are pending. -/
def legalWith (pending : List HostAccess) : State :=
  { withInput 7 [0x61, 0x62, 0x63] with
    cmd := 4, status := 0x17, result := 9, opa := 0x12345678, opb := 31, pending := pending }

theorem legalWith_legal (p : List HostAccess) : (legalWith p).Legal :=
  ⟨(by decide : (legalWith []).buf.wf), (by decide : statusReserved 0x17#32 = 0#32),
    (by decide : (statusEcode 0x17#32).toNat ≤ 2), (by decide : 1#32 &&& 0xFFFFFFFE#32 = 0#32),
    (by decide : statusErr 0x17#32 = true ↔ statusEcode 0x17#32 ≠ 0#4),
    (by decide : statusErr 0x17#32 = true → statusDone 0x17#32 = true),
    (by decide : statusErrSeen 0x17#32 = true → statusDone 0x17#32 = true),
    fun h => absurd h (by decide : ¬ statusDone 0x17#32 = false)⟩

theorem legalWith_inputIs (p : List HostAccess) : InputIs (legalWith p) [0x61, 0x62, 0x63] :=
  ⟨(by decide : (1#32).getLsbD 0 = true), rfl, (by decide : ∀ j (h : j < 3),
    Memory.read (memFrom 0 [0x61, 0x62, 0x63]) j = some ([0x61, 0x62, 0x63] : List Byte)[j])⟩

theorem legalWith_inputWritten (p : List HostAccess) : (legalWith p).inputWritten :=
  (by decide : ∀ a, a < 3 → (Memory.read (memFrom 0 [0x61, 0x62, 0x63]) a).isSome = true)

/-- The empty, present buffer. -/
def emptyInput : State := withInput 0xc58f1a7b []

theorem emptyInput_inputIs : InputIs emptyInput [] :=
  ⟨by decide, rfl, fun j h => absurd h (Nat.not_lt_zero j)⟩

theorem witness_ResetLeavesNoUsableBufByte :
    (legalWith [.reset, .read .cmd]).pending = .reset :: [.read .cmd] ∧ isHash .m3h = true ∧
      0xFFFFFFFF#32 ≠ 0#32 := ⟨rfl, rfl, by decide⟩

theorem witness_StepKeepsStateLegal :
    (legalWith [.write .cmd 1]).Legal ∧ ∃ t, step (legalWith [.write .cmd 1]) = .next t :=
  ⟨legalWith_legal _, _, rfl⟩

theorem witness_HostWriteFollowsAccessType :
    Reg.status ≠ Reg.cmd ∧ Reg.result ≠ Reg.cmd ∧ Reg.bufCtrl ≠ Reg.cmd ∧ Reg.hc 7 ≠ Reg.cmd := by
  decide

theorem witness_ErrSeenClearedOnlyByResetOrItsWrite :
    (∃ t, step (legalWith [.write .status 0xFFFFFFFB]) = .next t) ∧
      (∀ a ∈ (legalWith [.write .status 0xFFFFFFFB]).pending.head?, ¬ a.clearsErrSeen) ∧
      statusErrSeen (legalWith [.write .status 0xFFFFFFFB]).status = true := by
  refine ⟨⟨_, rfl⟩, fun a ha => ?_, by decide⟩
  cases ha
  rintro (h | ⟨w, h, hw⟩)
  · cases h
  · cases h; revert hw; decide

theorem witness_ErrSeenZeroAtEndMeansNoErrorInRun :
    let s : State := { withOps 3 4 with pending := [.write .cmd 1, .read .result] }
    (∃ t, runsTo 2 s t ∧ statusErrSeen t.status = false) ∧
      (∀ a ∈ s.pending.take 2, ¬ a.clearsErrSeen) ∧
      (∃ v, runsTo 0 s s ∧ step s = .next v ∧ ∃ a ∈ s.pending.head?, a.isCommand) ∧
      ∃ u v, runsTo 1 s u ∧ step u = .next v := by
  refine ⟨⟨_, rfl, by decide⟩, fun a ha => ?_, ⟨_, rfl, rfl, _, rfl, _, rfl⟩, _, _, rfl, rfl⟩
  rcases List.mem_cons.1 ha with rfl | ha
  · rintro (h | ⟨w, h, _⟩) <;> cases h
  · rcases List.mem_cons.1 ha with rfl | ha
    · rintro (h | ⟨w, h, _⟩) <;> cases h
    · cases ha

theorem witness_HostReadReturnsRegister : ∃ s : State, s.Legal := ⟨_, legalWith_legal []⟩

theorem witness_ReservedStateReadFaults :
    statusReserved 0x8#32 ≠ 0#32 ∧ statusReserved 0x80000000#32 ≠ 0#32 ∧
      3 ≤ (statusEcode 0x30#32).toNat ∧ 2#32 >>> 1 ≠ 0#32 := by decide

theorem witness_HostByteWriteSetsThatByte :
    ∃ t, exec .m2h (legalWith []) = .next t := ⟨_, rfl⟩

theorem witness_AccessesTakeEffectInHostOrder :
    State.reset.pending = [] ∧ (legalWith [.read (.hc 0), .reset]).pending = .read (.hc 0) :: [.reset] ∧
      ∃ t, step (legalWith [.read (.hc 0), .reset]) = .next t := ⟨rfl, rfl, _, rfl⟩

theorem witness_ReadsAfterCommandSeeItsEffect :
    (legalWith [.write .cmd 0x14, .read .result, .read .status]).Legal ∧
      ∃ t, step (legalWith [.write .cmd 0x14, .read .result, .read .status]) = .next t :=
  ⟨legalWith_legal _, _, rfl⟩

theorem witness_ResultChangesOnlyBySuccessOrReset :
    (∃ t, step (legalWith [.write .cmd 2]) = .next t ∧ t.result ≠ (legalWith []).result) ∧
      ∃ t, step (legalWith [.reset]) = .next t ∧ t.result ≠ (legalWith []).result :=
  ⟨⟨_, rfl, by decide⟩, _, rfl, by decide⟩

theorem legalWith_ready (r : Reg) (w : Word) (rest : List HostAccess) (i : Instr)
    (hd : decode w = .command i) (hi : i = .m2h) : (legalWith (.write r w :: rest)).ready := by
  intro a rest' hp
  cases hp
  refine ⟨rfl, fun w' i' he hd' => ?_⟩
  cases he
  rw [hd] at hd'
  cases hd'
  subst hi
  exact ⟨rfl, fun _ _ => legalWith_inputWritten _, fun h => (by cases h)⟩

theorem witness_ReadyStepCompletes :
    (legalWith [.write .cmd 4]).Legal ∧ (legalWith [.write .cmd 4]).ready :=
  ⟨legalWith_legal _, legalWith_ready .cmd 4 [] .m2h (by decide) rfl⟩

theorem witness_ReadyHostProgramRunsToItsEnd :
    (legalWith [.write .cmd 4]).Legal ∧ ∀ j u, runsTo j (legalWith [.write .cmd 4]) u → u.ready := by
  refine ⟨legalWith_legal _, fun j u h => ?_⟩
  have idle : ∀ (j : Nat) (s u : State), s.pending = [] → runsTo j s u → u.ready := by
    intro j
    induction j with
    | zero =>
      intro s u hp h
      cases (runsTo_zero _ _).1 h
      intro a rest ha
      rw [hp] at ha; cases ha
    | succ j ih =>
      intro s u hp h
      obtain ⟨v, hv, h⟩ := (runsTo_succ _ _ _).1 h
      rw [step_idle hp] at hv
      cases hv
      exact ih s u hp h
  cases j with
  | zero =>
    cases (runsTo_zero _ _).1 h
    exact legalWith_ready .cmd 4 [] .m2h (by decide) rfl
  | succ j =>
    obtain ⟨v, hv, h⟩ := (runsTo_succ _ _ _).1 h
    exact idle j v u (step_pending hv) h

theorem witness_StepRunsDecodedCommand :
    (legalWith [.write .cmd 0x00FF0716]).pending = .write .cmd 0x00FF0716 :: [] ∧
      decode 0x00FF0716 = .command (.combS 8 255) := ⟨rfl, by decide⟩

theorem witness_FetchWordRunsNext : decodeTableWord 32 0x00FF0716 = some (.combS 8 255) := by decide

theorem witness_CmdWriteStoresAndRuns :
    (∃ t, perform (.write .cmd 0x14) (legalWith []) = .next t) ∧
      (∃ t, perform (.write .cmd 0) (legalWith []) = .next t) ∧ ∃ t, exec .mix3 (legalWith []) = .next t :=
  ⟨⟨_, rfl⟩, ⟨_, rfl⟩, _, rfl⟩

theorem witness_CommandWritesOnlyResultAndStatus :
    (∃ t, exec (.comb 8 0) (legalWith []) = .next t) ∧
      (∃ t, runCommand 0xFFFFFFFF (legalWith []) = .next t) ∧
      ∃ t, exec .m3hS State.reset = .next t := ⟨⟨_, rfl⟩, ⟨_, rfl⟩, _, rfl⟩

theorem witness_ReadyCommandSucceeds :
    commandReady .m2hS (legalWith []) ∧ (isHash .m2hS = true → bufValid (legalWith []) = true) ∧
      commandReady .rotl32 (legalWith []) ∧ commandReady (.comb 1 255) State.reset ∧
      commandReady (.combS 8 0) State.reset :=
  ⟨⟨rfl, fun _ _ => legalWith_inputWritten _, fun h => (by cases h)⟩, fun _ => rfl,
    ⟨rfl, fun h => (by cases h), fun _ => .inr (by decide)⟩,
    ⟨rfl, fun h => (by cases h), fun h => (by cases h)⟩, rfl, fun h => (by cases h), fun h => (by cases h)⟩

theorem witness_ErrorsArePreciseAndOrdered :
    (∀ i, decode 0x24#32 ≠ .command i) ∧ decode 0x15#32 = .command .m3hS ∧ isHash .m3hS = true ∧
      State.reset.bufCtrl.getLsbD 0 = false ∧ ∃ t, perform (.write .cmd 0x24) (legalWith []) = .next t := by
  have h : decode 0x24#32 = .illegal .reservedBitSet := by decide
  exact ⟨fun i => (by rw [h]; exact fun e => by cases e), by decide, rfl, rfl, _, rfl⟩

theorem witness_NullInputExactlyOnAbsentBuffer :
    (isHash .m2h = true ∧ State.reset.bufCtrl.getLsbD 0 = false) ∧
      (∃ t, exec (.comb 1 0) State.reset = .next t) ∧ (∃ t, exec .m2h (legalWith []) = .next t) ∧
      isHash .m3h = true ∧ emptyInput.bufCtrl.getLsbD 0 = true ∧ emptyInput.bufLen = 0#32 :=
  ⟨⟨rfl, rfl⟩, ⟨_, rfl⟩, ⟨_, rfl⟩, rfl, rfl, rfl⟩

theorem witness_UnwrittenInputByteFaults :
    isHash .m2hS = true ∧ ∃ a, a < ({ legalWith [] with bufLen := 4 } : State).bufLen.toNat ∧
      (legalWith []).buf.read a = none := ⟨rfl, 3, by decide, by decide⟩

theorem witness_IllFormedArityRefused :
    ((0 = 0 ∨ 9 ≤ 0) ∧ (9 = 0 ∨ 9 ≤ 9)) ∧ decode 0x706#32 = .command (.comb 8 0) :=
  ⟨by decide, by decide⟩

theorem witness_CommandDependsOnlyOnItsOperands :
    SameOperands .rotl32 (withOps 3 4) (withOps 3 0xFFFFFFE4) ∧
    SameOperands .m2hS (legalWith []) { legalWith [] with
      opa := 5, status := 0, result := 1, cmd := 2,
      hc := #v[1, 2, 3, 4, 5, 6, 7, 8], buf := memFrom 0 [0x61, 0x62, 0x63, 0x64] } ∧
    SameOperands (.combS 1 0xFE) (legalWith []) { legalWith [] with
      opa := 5, bufLen := 0,
      hc := #v[0, 2, 3, 4, 5, 6, 7, 8] } :=
  ⟨⟨rfl, by decide, fun h => (by cases h)⟩, ⟨⟨rfl, fun _ => ⟨rfl, (by decide : ∀ a, a < 3 →
      Memory.read (memFrom 0 [0x61, 0x62, 0x63]) a =
        Memory.read (memFrom 0 [0x61, 0x62, 0x63, 0x64]) a)⟩⟩, fun _ => rfl⟩,
    (by decide : ∀ k : Fin 8, k.val < 1 → (0xFE#8).getLsbD k.val = false →
      (Vector.replicate 8 0#32)[k] = (#v[0, 2, 3, 4, 5, 6, 7, 8] : Vector Word 8)[k]), rfl⟩

theorem witness_DecodeOfEncodeIsTheCommand :
    (Instr.comb 1 255).wellFormed = true ∧ (Instr.combS 8 0).wellFormed = true := by decide

theorem witness_EncodeOfDecodeIsTheWord : decode 0x00FF0716#32 = .command (.combS 8 255) := by decide

theorem witness_DecodeAgreesWithOpcodeTable :
    decode 0x00FF0006#32 = .command (.comb 1 255) ∧ Instr.row (.comb 1 0) ∈ opcodeTable ∧
      0x00FF0006#32 &&& (Instr.row (.comb 1 0)).mask = (Instr.row (.comb 1 0)).pattern := by decide

theorem witness_IllegalWordsAreExactlyThese : ∀ i, decode 0x111#32 ≠ .command i := by
  have h : decode 0x111#32 = .illegal .unusedFieldSet := by decide
  intro i e
  rw [h] at e; cases e

theorem witness_RotateIsRotationByCountModThirtyTwo : (1 ≤ 1 ∧ 1 ≤ 31) ∧ 1 ≤ 31 ∧ 31 ≤ 31 := by decide

theorem witness_RotateCommandResult :
    (params.rotlOob = .mask ∨ (1 ≤ (withOps 1 1).opb.toNat ∧ (withOps 1 1).opb.toNat ≤ 31)) ∧
      (1 ≤ (withOps 1 31).opb.toNat ∧ (withOps 1 31).opb.toNat ≤ 31) ∧
      ((withOps 1 0).opb.toNat = 0 ∧ 32 ≤ (withOps 1 32).opb.toNat) := by decide

theorem witness_RotatePseudoInstructionRotatesRight :
    params.rotlOob = .mask ∧ (legalWith (rotr32 5 ++ [.reset])).pending = rotr32 5 ++ [.reset] :=
  ⟨by decide, rfl⟩

theorem witness_M2HResult : (∃ s data, InputIs s data ∧ data.length = 3) ∧ InputIs emptyInput [] :=
  ⟨⟨_, _, legalWith_inputIs [], rfl⟩, emptyInput_inputIs⟩

theorem witness_M2HEmptyInputIsZero :
    (emptyInput.bufCtrl.getLsbD 0 = true ∧ emptyInput.bufLen = 0#32) ∧
      State.reset.bufCtrl.getLsbD 0 = false := by decide

theorem witness_TailParameterMattersOnlyForThreeByteTails :
    ([] : List Byte).length % 4 ≠ 3 ∧ ([1, 2, 3, 4, 5, 6] : List Byte).length % 4 ≠ 3 := by decide

theorem witness_M3HResult : (∃ s data, InputIs s data ∧ data.length = 3) ∧ InputIs emptyInput [] :=
  ⟨⟨_, _, legalWith_inputIs [], rfl⟩, emptyInput_inputIs⟩

theorem witness_M3HSeedAndEmptyInput :
    params.m3H1Init = .zero ∧ emptyInput.bufCtrl.getLsbD 0 = true ∧ emptyInput.bufLen = 0#32 ∧
      State.reset.bufCtrl.getLsbD 0 = false := by decide

theorem witness_CombinerResult : (1 ≤ 1 ∧ 1 ≤ 8) ∧ 1 ≤ 8 ∧ 8 ≤ 8 := by decide

theorem witness_AbsentMaskMeaning :
    ((0 : Fin 8).val < 1 ∧ (0x01#8).getLsbD (0 : Fin 8).val = true) ∧
      ((7 : Fin 8).val < 8 ∧ (0x80#8).getLsbD (7 : Fin 8).val = true) ∧
      (∀ k, k < 1 → (0xFF#8).getLsbD k = (0x01#8).getLsbD k) ∧ 1 ≤ 8 := by decide

theorem witness_ExplicitDefaultSeedGivesThePlainForm :
    emptyInput.seed = 0xc58f1a7b#32 ∧ State.reset.seed = 0#32 := by decide

theorem witness_RegisterWindowMapping :
    0x4000 % 4 = 0 ∧ (∀ addr, inWindow 0x4000 addr = true → inBuf (some 0x4040) addr = false) ∧
      (0x4000 ≤ 0x403F ∧ 0x403F < 0x4000 + 64 ∧ 0x403F % 4 ≠ 0) ∧ inBuf (some 0x4040) 0x3FFF = false ∧
      inBuf none 0x4040 = false ∧ 0x4000 + 64 ≤ 0x4040 := by
  refine ⟨by decide, fun addr h => ?_, by decide, by decide, by decide, by decide⟩
  simp only [inWindow, inBuf, Bool.and_eq_true, decide_eq_true_eq, Bool.and_eq_false_iff,
    decide_eq_false_iff_not] at h ⊢
  omega

theorem witness_BusLanesAreLittleEndian :
    0x4000 % 4 = 0 ∧ (∀ addr, inWindow 0x4000 addr = true → inBuf (some 0x4040) addr = false) ∧
      ∀ addr, inWindow 0x4000 addr = true → inBuf none addr = false :=
  ⟨rfl, witness_RegisterWindowMapping.2.1, fun _ _ => rfl⟩

theorem witness_BufWindowMapping :
    (0x4040 + (0#32).toNat < 0x4000 ∨ 0x4000 + 64 ≤ 0x4040 + (0#32).toNat) ∧
      (0 + (0x3FFF#32).toNat < 0x4000 ∨ 0x4000 + 64 ≤ 0 + (0x3FFF#32).toNat) ∧
      ([] : List Byte).length ≠ 1 ∧ ([1, 2] : List Byte).length ≠ 1 ∧
      (0x4000 ≤ 0 + (0x403F#32).toNat ∧ 0 + (0x403F#32).toNat < 0x4000 + 64) := by decide

theorem witness_WrbLineWritesItsBytes :
    hostWriteBytes 0xFFFFFFFF [0x80] = some [.writeByte 0xFFFFFFFF 0x80] ∧
      hostWriteBytes 0xFFFFFFFF [0x80, 0x81] = none ∧
      (legalWith ([.writeByte 0xFFFFFFFF 0x80] ++ [.reset])).pending =
        [.writeByte 0xFFFFFFFF 0x80] ++ [.reset] := by decide

theorem witness_CmdLineRunsItsCommand :
    hostCmd (.combS 8 255) = some (.write .cmd 0x00FF0716) ∧ hostCmd (.comb 0 0) = none ∧
      hostCmd (.comb 9 0) = none ∧
      (legalWith [.write .cmd 0x00FF0716]).pending = .write .cmd 0x00FF0716 :: [] := by decide

theorem witness_LdbufMakesTheInput :
    ldbuf [0xFF] = some [.writeByte 0 0xFF, .write .bufLen 1, .write .bufCtrl 1] ∧
      ldbuf [] = some [.write .bufLen 0, .write .bufCtrl 1] ∧
      (legalWith ([.write .bufLen 0, .write .bufCtrl 1] ++ [.read .status])).pending =
        [.write .bufLen 0, .write .bufCtrl 1] ++ [.read .status] := by decide

theorem witness_NullbufAndClrerrExpand :
    (legalWith (nullbuf ++ [])).pending = nullbuf ++ [] ∧
      (legalWith (clrerr ++ [])).pending = clrerr ++ [] := ⟨rfl, rfl⟩

theorem witness_CombinerLineAssembles :
    (['c', 'o', 'm', 'b'] : List Char).map Char.toUpper = ['C', 'O', 'M', 'B'] ∧
      (['C', 'o', 'm', 'B', '.', 's'] : List Char).map Char.toUpper = ['C', 'O', 'M', 'B', '.', 'S'] ∧
      (1 ≤ 1 ∧ 1 ≤ 8) ∧ 1 ≤ 8 ∧ 8 ≤ 8 := by decide

end Sys2Proof.Tests
end

/-! Proofs about the state and the host's accesses to it: which registers a command and a host write
change, the reads that fault, and the invariant `State.Legal`. -/

namespace Sys2Proof.Machine

/-! ## The registers a command leaves alone (R30) -/

theorem operandsKept_succeed (v : Word) (s : State) : OperandsKept s (succeed v s) := by
  simp [OperandsKept]

theorem operandsKept_raise (e : ErrorKind) (s : State) : OperandsKept s (raise e s) := by
  simp [OperandsKept]

theorem exec_keeps_operands {i : Instr} {s t : State} (h : exec i s = .next t) :
    OperandsKept s t := by
  rcases exec_next h with ⟨v, rfl⟩ | ⟨-, -, rfl⟩
  · exact operandsKept_succeed v s
  · exact operandsKept_raise .nullInput s

theorem runCommand_keeps_operands {w : Word} {s t : State} (h : runCommand w s = .next t) :
    OperandsKept s t := by
  rcases runCommand_next h with ⟨v, rfl⟩ | ⟨e, rfl⟩
  · exact operandsKept_succeed v s
  · exact operandsKept_raise e s

theorem OperandsKept.cmd_eq {s t : State} (h : OperandsKept s t) : t.cmd = s.cmd := h.left

/-! ## The CMD write (R21) -/

theorem perform_write_cmd (w : Word) (s : State) :
    perform (.write .cmd w) s = runCommand w { s with cmd := w } := rfl

theorem runCommand_of_decode {w : Word} {i : Instr} (h : decode w = .command i) (s : State) :
    runCommand w s = exec i s := by
  simp only [runCommand, h]

theorem runCommand_of_illegal {w : Word} {why : IllegalReason} (h : decode w = .illegal why)
    (s : State) : runCommand w s = .next (raise .illegalCommand s) := by
  simp only [runCommand, h]

theorem step_write_cmd {s : State} {w : Word} {i : Instr} {rest : List HostAccess}
    (hp : s.pending = .write .cmd w :: rest) (hd : decode w = .command i) :
    step s = exec i { s with pending := rest, cmd := w } := by
  rw [step_cons hp, perform_write_cmd, runCommand_of_decode hd]

theorem decode_tableWord {nbits w : Nat} {i : Instr} (h : decodeTableWord nbits w = some i) :
    decode (tableWord nbits w) = .command i := by
  unfold decodeTableWord at h
  split at h
  · split at h
    · cases h; assumption
    · cases h
  · cases h

/-! ## Host reads (R44, I9) -/

theorem hostRead_of_not_showsReserved {s : State} {r : Reg} (h : showsReserved s r = false) :
    hostRead r s = .next { s with replies := s.replies ++ [readReg s r] } := by
  simp [hostRead, h]

theorem hostRead_of_showsReserved {s : State} {r : Reg} (h : showsReserved s r = true) :
    hostRead r s = .fault .reservedBitsSeen := by
  simp [hostRead, h]

theorem not_legal_of_showsReserved {s : State} {r : Reg} (h : showsReserved s r = true) :
    ¬ s.Legal := fun hs => by
  rw [showsReserved_legal hs r] at h; cases h

theorem showsReserved_status (s : State) :
    showsReserved s .status = true ↔
      statusReserved s.status ≠ 0#32 ∨ 3 ≤ (statusEcode s.status).toNat := by
  simp [showsReserved]

/-- The bits above bit 0, shifted down, are those that the mask keeps. -/
theorem shiftRight_one_eq_masked (x : Word) : x >>> 1 = (x &&& 0xFFFFFFFE#32) >>> 1 := by
  apply BitVec.eq_of_getLsbD_eq
  intro j hj
  simp only [BitVec.getLsbD_ushiftRight, BitVec.getLsbD_and]
  interval_cases j <;> simp

theorem showsReserved_bufCtrl {s : State} (h : s.bufCtrl >>> 1 ≠ 0#32) :
    showsReserved s .bufCtrl = true := by
  have masked : s.bufCtrl &&& 0xFFFFFFFE#32 ≠ 0#32 := fun h0 => h (by
    rw [shiftRight_one_eq_masked, h0]; rfl)
  simpa [showsReserved] using masked

/-! ## Host writes (R20) -/

theorem hostWrite_of_ne_cmd {r : Reg} (h : r ≠ .cmd) (w : Word) (s : State) :
    hostWrite r w s = .next (writeReg r w s) := by
  simp [hostWrite, h]

/-- R27: BUF_CTRL keeps bit 0 of the written word. -/
theorem and_one_eq_storedByHost (w old : Word) : w &&& 1#32 = storedByHost .bufCtrl w old := by
  rw [BitVec.and_one_eq_setWidth_ofBool_getLsbD, storedByHost]
  cases w.getLsbD 0 <;> rfl

theorem readReg_writeReg_same (r : Reg) (w : Word) (s : State) :
    readReg (writeReg r w s) r = storedByHost r w (readReg s r) := by
  cases r with
  | bufCtrl => exact and_one_eq_storedByHost w s.bufCtrl
  | hc k => simp [readReg, storedByHost]
  | _ => rfl

/-- No register aliases another. -/
theorem readReg_writeReg_of_ne {r r' : Reg} (h : r' ≠ r) (w : Word) (s : State) :
    readReg (writeReg r w s) r' = readReg s r' := by
  cases r with
  | hc k =>
    cases r' with
    | hc j =>
      have hkj : k.val ≠ j.val := fun e => h (by rw [Fin.ext e])
      simp [readReg, Vector.getElem_set_ne _ _ hkj]
    | _ => rfl
  | _ => cases r' <;> simp_all [readReg]

theorem readReg_writeReg (r r' : Reg) (w : Word) (s : State) :
    readReg (writeReg r w s) r' =
      if r' = r then storedByHost r w (readReg s r) else readReg s r' := by
  split
  next h => rw [h, readReg_writeReg_same]
  next h => exact readReg_writeReg_of_ne h w s

/-! ## The invariant -/

theorem legal_reset : State.reset.Legal where
  buf_wf := reset_buf_wf
  status_reserved := rfl
  ecode_le := by decide
  bufCtrl_reserved := rfl
  err_iff := by decide
  done_of_err := by decide
  done_of_errSeen := by decide
  idle_zero := fun _ => ⟨rfl, rfl⟩

theorem legal_resetBlock (s : State) : (resetBlock s).Legal :=
  legal_reset.hostSide s.pending s.replies

/-- After a success DONE is 1, so CMD and RESULT may hold anything (R113). -/
theorem State.Legal.after_succeed {s : State} (h : s.Legal) (w v : Word) :
    (succeed v { s with cmd := w }).Legal where
  buf_wf := h.buf_wf
  status_reserved := by simpa using h.status_reserved
  ecode_le := by simp
  bufCtrl_reserved := h.bufCtrl_reserved
  err_iff := by simp
  done_of_err := by simp
  done_of_errSeen := by simp
  idle_zero := by simp

/-- After an error DONE, ERR and ERRSEEN are 1, and ECODE is the error's code (R108, R112). -/
theorem State.Legal.after_raise {s : State} (h : s.Legal) (w : Word) (e : ErrorKind) :
    (raise e { s with cmd := w }).Legal where
  buf_wf := h.buf_wf
  status_reserved := by simpa using h.status_reserved
  ecode_le := by rcases e.ecode_cases with he | he <;> simp [he]
  bufCtrl_reserved := h.bufCtrl_reserved
  err_iff := by rcases e.ecode_cases with he | he <;> simp [he]
  done_of_err := by simp
  done_of_errSeen := by simp
  idle_zero := by simp

theorem State.Legal.after_writeBuf {s : State} (h : s.Legal) (off : Word) (b : Byte) :
    (writeBuf off b s).Legal :=
  { h with buf_wf := writeBuf_wf h.buf_wf off b }

/-- A STATUS write can only clear ERRSEEN (R122). -/
theorem State.Legal.after_writeStatus {s : State} (h : s.Legal) (w : Word) :
    (writeReg .status w s).Legal where
  buf_wf := h.buf_wf
  status_reserved := by simpa using h.status_reserved
  ecode_le := by simpa using h.ecode_le
  bufCtrl_reserved := h.bufCtrl_reserved
  err_iff := by simpa using h.err_iff
  done_of_err := by simpa using h.done_of_err
  done_of_errSeen := by simpa using fun hs _ => h.done_of_errSeen hs
  idle_zero := by simpa using h.idle_zero

theorem State.Legal.after_writeBufCtrl {s : State} (h : s.Legal) (w : Word) :
    (writeReg .bufCtrl w s).Legal :=
  { h with bufCtrl_reserved := by simp [BitVec.and_assoc] }

theorem State.Legal.after_writeReg {s : State} (h : s.Legal) {r : Reg} (hr : r ≠ .cmd) (w : Word) :
    (writeReg r w s).Legal := by
  cases r with
  | cmd => exact absurd rfl hr
  | status => exact h.after_writeStatus w
  | bufCtrl => exact h.after_writeBufCtrl w
  | _ => exact { h with }

/-- Every host access that goes on keeps the state legal. -/
theorem AccessEffect.legal {a : HostAccess} {s t : State} (he : AccessEffect a s t) (h : s.Legal) :
    t.Legal := by
  cases he with
  | read r _ => exact h.hostSide s.pending _
  | write r w _ hr => exact h.after_writeReg hr w
  | success w v _ => exact h.after_succeed w v
  | error w e _ => exact h.after_raise w e
  | byte off b _ => exact h.after_writeBuf off b
  | reset _ => exact legal_resetBlock s

/-! ## RESULT (R23) -/

theorem AccessEffect.of_result_ne {a : HostAccess} {s t : State} (he : AccessEffect a s t)
    (h : t.result ≠ s.result) :
    (a.isCommand ∧ statusDone t.status = true ∧ statusErr t.status = false) ∨
      (a = .reset ∧ t.result = 0#32) := by
  cases he with
  | read r _ => exact absurd rfl h
  | write r w _ _ => exact absurd (writeReg_keeps_result r w s) h
  | success w v hw => exact .inl ⟨⟨w, hw⟩, by simp, by simp⟩
  | error w e _ => exact absurd rfl h
  | byte off b _ => exact absurd rfl h
  | reset ha => exact .inr ⟨ha, rfl⟩

/-! ## The obligations -/

/-- Settles O2. -/
theorem resetStateIsLegal : Obligations.ResetStateIsLegal := legal_reset

/-- Settles O3: an idle step changes nothing, each effect of an access keeps the invariant. -/
theorem stepKeepsStateLegal : Obligations.StepKeepsStateLegal := by
  intro s t hs h
  rcases step_next h with ⟨-, rfl⟩ | ⟨a, rest, -, he⟩
  · exact hs
  · exact he.legal (hs.hostSide rest s.replies)

/-- Settles O4. -/
theorem hostWriteFollowsAccessType : Obligations.HostWriteFollowsAccessType := by
  intro r w s hr
  exact ⟨writeReg r w s, hostWrite_of_ne_cmd hr w s, fun r' => readReg_writeReg r r' w s,
    fun _ => by rw [writeReg_keeps_buf], writeReg_keeps_pending r w s,
    writeReg_keeps_replies r w s⟩

/-- Settles O8: both reads show a reserved value, which no legal state does. -/
theorem reservedStateReadFaults : Obligations.ReservedStateReadFaults := by
  refine fun s => ⟨fun h => ?_, fun h => ?_⟩
  · have shown := (showsReserved_status s).2 h
    exact ⟨hostRead_of_showsReserved shown, not_legal_of_showsReserved shown⟩
  · have shown := showsReserved_bufCtrl h
    exact ⟨hostRead_of_showsReserved shown, not_legal_of_showsReserved shown⟩

/-- Settles O12: an idle step changes nothing, an access's effect says when RESULT changes. -/
theorem resultChangesOnlyBySuccessOrReset : Obligations.ResultChangesOnlyBySuccessOrReset := by
  intro s t h hne
  rcases step_next h with ⟨-, rfl⟩ | ⟨a, rest, hp, he⟩
  · exact absurd rfl hne
  · exact ⟨a, rest, hp, he.of_result_ne hne⟩

/-- Settles O15. -/
theorem stepRunsDecodedCommand : Obligations.StepRunsDecodedCommand :=
  fun _ _ _ _ hp hd => step_write_cmd hp hd

/-- Settles O16: the fetched word is the oldest pending CMD write. -/
theorem fetchWordRunsNext : Obligations.FetchWordRunsNext := by
  intro s nbits w i h
  exact step_write_cmd (withFetchWord_pending s nbits w) (decode_tableWord h)

/-- Settles O17: a command keeps CMD, so the word just stored is what a read returns. -/
theorem cmdWriteStoresAndRuns : Obligations.CmdWriteStoresAndRuns := by
  refine ⟨fun s w => ?_, fun s t w h => ?_, fun i s t h => (exec_keeps_operands h).cmd_eq, rfl,
    step_idle rfl⟩
  · rw [perform_write_cmd]
    cases hd : decode w with
    | command i => exact runCommand_of_decode hd _
    | illegal why => exact runCommand_of_illegal hd _
  · rw [perform_write_cmd] at h
    have stored : t.cmd = w := (runCommand_keeps_operands h).cmd_eq
    refine ⟨stored, ?_⟩
    rw [hostRead_of_not_showsReserved rfl, readReg, stored]

/-- Settles O18. -/
theorem commandWritesOnlyResultAndStatus : Obligations.CommandWritesOnlyResultAndStatus :=
  ⟨fun _ _ _ h => exec_keeps_operands h, fun _ _ _ h => runCommand_keeps_operands h⟩

end Sys2Proof.Machine

/-! Proofs about memory and the host's accesses: register reads, byte writes to BUF, the host's order,
the unwritten input byte, and the register and BUF windows on the bus. -/

namespace Sys2Proof.Machine

/-! ## Host reads (R44) -/

theorem State.Legal.hostRead_eq {s : State} (h : s.Legal) (r : Reg) :
    hostRead r s = .next { s with replies := s.replies ++ [readReg s r] } :=
  hostRead_of_not_showsReserved (showsReserved_legal h r)

/-- No register is on the host's own side of the state. -/
theorem readReg_hostSide (s : State) (p : List HostAccess) (l : List Word) (r : Reg) :
    readReg { s with pending := p, replies := l } r = readReg s r := by cases r <;> rfl

theorem State.Legal.step_read {s : State} (h : s.Legal) {r : Reg} {rest : List HostAccess}
    (hp : s.pending = .read r :: rest) :
    step s = .next { s with pending := rest, replies := s.replies ++ [readReg s r] } := by
  have read := (h.hostSide rest s.replies).hostRead_eq r
  rw [readReg_hostSide] at read
  rw [step_cons hp]
  exact read

/-! ## BUF (R49) -/

theorem OperandsKept.buf_read {s t : State} (h : OperandsKept s t) (a : Nat) :
    t.buf.read a = s.buf.read a := by
  obtain ⟨-, -, -, -, -, -, -, hbuf, -, -⟩ := h
  exact hbuf a

theorem writeBuf_read (off : Word) (b : Byte) (s : State) (a : Nat) :
    (writeBuf off b s).buf.read a = if a = off.toNat then some b else s.buf.read a :=
  Memory.read_write s.buf off.toNat a b

@[simp] theorem readReg_writeBuf (off : Word) (b : Byte) (s : State) (r : Reg) :
    readReg (writeBuf off b s) r = readReg s r := by cases r <;> rfl

/-! ## What the host is told (R51) -/

/-- An access tells the host at most one value. -/
theorem AccessEffect.replies {a : HostAccess} {s t : State} (h : AccessEffect a s t) :
    t.replies = s.replies ∨ ∃ v, t.replies = s.replies ++ [v] := by
  cases h with
  | read r _ => exact .inr ⟨readReg s r, rfl⟩
  | write r w _ _ => exact .inl (writeReg_keeps_replies r w s)
  | success w v _ => exact .inl rfl
  | error w e _ => exact .inl rfl
  | byte off b _ => exact .inl rfl
  | reset _ => exact .inl rfl

theorem OperandsKept.replies_eq {s t : State} (h : OperandsKept s t) : t.replies = s.replies := by
  obtain ⟨-, -, -, -, -, -, -, -, -, hreplies⟩ := h
  exact hreplies

theorem step_write_cmd_replies {s t : State} {w : Word} {rest : List HostAccess}
    (hp : s.pending = .write .cmd w :: rest) (h : step s = .next t) : t.replies = s.replies := by
  rw [step_cons hp, perform_write_cmd] at h
  exact (runCommand_keeps_operands h).replies_eq

/-! ## The unwritten input byte (R46) -/

/-- A hash command hashes the input buffer with one function of its bytes, its seed taken from the
state before it. -/
theorem exists_exec_eq_hashCommand {i : Instr} (h : isHash i = true) (s : State) :
    ∃ f, exec i s = hashCommand f s := by
  cases i with
  | m2h => exact ⟨_, rfl⟩
  | m2hS => exact ⟨_, rfl⟩
  | m3h => exact ⟨_, rfl⟩
  | m3hS => exact ⟨_, rfl⟩
  | _ => cases h

theorem hashCommand_eq_fault {f : List Byte → Word} {s : State} :
    hashCommand f s = .fault .bufByteUnwritten ↔ inputBuffer s = .unwritten := by
  refine ⟨fun h => ?_, hashCommand_unwritten f⟩
  cases hi : inputBuffer s with
  | absent => rw [hashCommand_absent f (inputBuffer_absent.1 hi)] at h; cases h
  | unwritten => rfl
  | present data => rw [hashCommand_present f hi] at h; cases h

theorem inputBuffer_unwritten_iff_exists {s : State} :
    inputBuffer s = .unwritten ↔
      bufValid s = true ∧ ∃ a, a < s.bufLen.toNat ∧ s.buf.read a = none := by
  rw [inputBuffer_unwritten, Memory.readBytes_eq_none]
  simp only [Nat.zero_add]

/-! ## The two windows (R47, D23) -/

theorem inWindow_iff {base addr : Nat} :
    inWindow base addr = true ↔ base ≤ addr ∧ addr < base + 64 := by
  simp [inWindow]

theorem inWindow_eq_false {base addr : Nat} :
    inWindow base addr = false ↔ addr < base ∨ base + 64 ≤ addr := by
  rw [← Bool.not_eq_true, inWindow_iff]
  omega

theorem inWindow_register (base : Nat) (i : Fin 16) : inWindow base (base + 4 * i.val) = true :=
  inWindow_iff.2 (by omega)

theorem inBuf_offset (base : Nat) (off : Word) : inBuf (some base) (base + off.toNat) = true := by
  have := off.isLt
  simp [inBuf]
  omega

/-! ## What a bus access reaches (R47, R48, R49) -/

section
variable {base addr : Nat} {bufBase : Option Nat}

theorem busTarget_ambiguous (hw : inWindow base addr = true) (hb : inBuf bufBase addr = true)
    (width : Nat) : busTarget base bufBase addr width = .refused .addressAmbiguous := by
  simp [busTarget, hw, hb]

theorem busTarget_outside (hw : inWindow base addr = false) (hb : inBuf bufBase addr = false)
    (width : Nat) : busTarget base bufBase addr width = .refused .outsideWindow := by
  simp [busTarget, hw, hb]

theorem busTarget_notAligned32 (hw : inWindow base addr = true) (hb : inBuf bufBase addr = false)
    {width : Nat} (h : width ≠ 4 ∨ addr % 4 ≠ 0) :
    busTarget base bufBase addr width = .refused .notAligned32 := by
  have misaligned : ¬ (width = 4 ∧ addr % 4 = 0 ∧ (addr - base) % 4 = 0) := by omega
  simp [busTarget, hw, hb, misaligned]

theorem busTarget_register (hbase : base % 4 = 0) (i : Fin 16)
    (hb : inBuf bufBase (base + 4 * i.val) = false) :
    busTarget base bufBase (base + 4 * i.val) 4 = .reg (Reg.ofIndex i) := by
  have aligned : (base + 4 * i.val) % 4 = 0 := by omega
  simp [busTarget, inWindow_register, hb, aligned]

theorem busTarget_bufByte {bufAddr : Nat} {off : Word}
    (hw : inWindow base (bufAddr + off.toNat) = false) :
    busTarget base (some bufAddr) (bufAddr + off.toNat) 1 = .buf off := by
  simp [busTarget, hw, inBuf_offset]

theorem busTarget_bufNotByte {bufAddr : Nat} {off : Word}
    (hw : inWindow base (bufAddr + off.toNat) = false) {width : Nat} (h : width ≠ 1) :
    busTarget base (some bufAddr) (bufAddr + off.toNat) width = .refused .bufNotByteWrite := by
  simp [busTarget, hw, inBuf_offset, h]

end

/-! ## Bus accesses by their target -/

section
variable {base addr width : Nat} {bufBase : Option Nat} {bytes : List Byte}

theorem busWrite_of_reg {r : Reg} (h : busTarget base bufBase addr bytes.length = .reg r)
    (s : State) : busWrite base bufBase addr bytes s = hostWrite r (littleEndian bytes) s := by
  simp only [busWrite, h]

theorem busWrite_of_buf {off : Word} (h : busTarget base bufBase addr bytes.length = .buf off)
    (s : State) :
    busWrite base bufBase addr bytes s = .next (writeBuf off (bytes.headD 0#8) s) := by
  simp only [busWrite, h]

theorem busWrite_of_refused {why : Refusal}
    (h : busTarget base bufBase addr bytes.length = .refused why) (s : State) :
    busWrite base bufBase addr bytes s = .refused why := by
  simp only [busWrite, h]

theorem busRead_of_reg {r : Reg} (h : busTarget base bufBase addr width = .reg r) (s : State) :
    busRead base bufBase addr width s = hostRead r s := by
  simp only [busRead, h]

theorem busRead_of_buf {off : Word} (h : busTarget base bufBase addr width = .buf off) (s : State) :
    busRead base bufBase addr width s = .refused .bufNotByteWrite := by
  simp only [busRead, h]

theorem busRead_of_refused {why : Refusal} (h : busTarget base bufBase addr width = .refused why)
    (s : State) : busRead base bufBase addr width s = .refused why := by
  simp only [busRead, h]

end

/-- The host never reads BUF: a byte read reaches a byte and is refused, any other width reaches none. -/
theorem busRead_bufAddress {base bufAddr : Nat} {off : Word}
    (hw : inWindow base (bufAddr + off.toNat) = false) (width : Nat) (s : State) :
    busRead base (some bufAddr) (bufAddr + off.toNat) width s = .refused .bufNotByteWrite := by
  by_cases h : width = 1
  · subst h
    exact busRead_of_buf (busTarget_bufByte hw) s
  · exact busRead_of_refused (busTarget_bufNotByte hw h) s

/-! ## Register indices (R20) -/

theorem index_ofIndex (i : Fin 16) : (Reg.ofIndex i).index = i.val := by
  revert i; decide

theorem index_lt (r : Reg) : r.index < 16 := by
  cases r with
  | hc k => exact Nat.add_lt_add_left k.isLt 8
  | _ => decide

/-! ## The obligations -/

/-- Settles O7. -/
theorem hostReadReturnsRegister : Obligations.HostReadReturnsRegister :=
  fun _ r hs => hs.hostRead_eq r

/-- Settles O9. -/
theorem hostByteWriteSetsThatByte : Obligations.HostByteWriteSetsThatByte :=
  ⟨fun s off b => ⟨writeBuf off b s, rfl, writeBuf_read off b s, readReg_writeBuf off b s, rfl, rfl⟩,
    fun _ _ _ h => (exec_keeps_operands h).buf_read⟩

/-- Settles O10: the third part is read off the effect of the oldest access. -/
theorem accessesTakeEffectInHostOrder : Obligations.AccessesTakeEffectInHostOrder := by
  refine ⟨fun s => step_idle, fun s a rest => step_cons, fun s t a rest hp h => ?_⟩
  rw [step_cons hp] at h
  have effect := perform_next h
  exact ⟨effect.pending, effect.replies⟩

/-- Settles O11: the CMD write leaves a legal state and tells the host nothing, so that the two reads
behind it answer that state's RESULT and STATUS. -/
theorem readsAfterCommandSeeItsEffect : Obligations.ReadsAfterCommandSeeItsEffect := by
  intro s t w rest hs hp h
  have legal : t.Legal := stepKeepsStateLegal s t hs h
  have pending : t.pending = .read .result :: .read .status :: rest := by
    rw [step_pending h, hp, List.tail_cons]
  have replies : t.replies = s.replies := step_write_cmd_replies hp h
  have readResult := legal.step_read pending
  have readStatus := (legal.hostSide (.read .status :: rest) (t.replies ++ [t.result])).step_read rfl
  rw [runsTo_succ]
  refine ⟨t, h, (runsTo_succ _ _ _).2 ⟨_, readResult, (runsTo_succ _ _ _).2 ⟨_, readStatus, ?_⟩⟩⟩
  rw [runsTo_zero, ← replies]
  simp [readReg]

/-- Settles O22: a hash command faults exactly on an unwritten input. -/
theorem unwrittenInputByteFaults : Obligations.UnwrittenInputByteFaults := by
  intro i s hi
  obtain ⟨f, hf⟩ := exists_exec_eq_hashCommand hi s
  rw [hf, hashCommand_eq_fault]
  exact inputBuffer_unwritten_iff_exists

/-- Settles O46. -/
theorem registerWindowMapping : Obligations.RegisterWindowMapping := by
  refine ⟨index_ofIndex, index_lt, fun base bufBase hbase apart => ⟨fun i => ?_, ?_, ?_⟩⟩
  · exact busTarget_register hbase i (apart _ (inWindow_register base i))
  · intro addr width hlo hhi hne
    have hw := inWindow_iff.2 ⟨hlo, hhi⟩
    exact busTarget_notAligned32 hw (apart addr hw) hne
  · intro addr width hout hb
    exact busTarget_outside (inWindow_eq_false.2 hout) hb width

/-- Settles O47: both accesses reach register `i`, and the four lanes make the word. -/
theorem busLanesAreLittleEndian : Obligations.BusLanesAreLittleEndian := by
  intro base bufBase i b0 b1 b2 b3 s hbase apart
  have target := busTarget_register hbase i (apart _ (inWindow_register base i))
  refine ⟨?_, busRead_of_reg target s⟩
  rw [busWrite_of_reg (bytes := [b0, b1, b2, b3]) target, littleEndian_four]

/-- Settles O52. -/
theorem bufWindowMapping : Obligations.BufWindowMapping := by
  refine fun regBase bufBase off s => ⟨fun hout => ?_, fun hin => ?_⟩
  · have hw := inWindow_eq_false.2 hout
    refine ⟨fun b => ?_, fun bytes hne => ?_, fun width => busRead_bufAddress hw width s⟩
    · exact busWrite_of_buf (bytes := [b]) (busTarget_bufByte hw) s
    · exact busWrite_of_refused (busTarget_bufNotByte hw hne) s
  · have target := busTarget_ambiguous (inWindow_iff.2 hin) (inBuf_offset bufBase off)
    exact ⟨fun bytes => busWrite_of_refused (target bytes.length) s,
      fun width => busRead_of_refused (target width) s⟩

end Sys2Proof.Machine

/-! Proofs about the encoding: `decode` and `encode` as inverses of each other, the opcode table, and
the illegal words. -/

namespace Sys2Proof

/-! ## What the decoder answers, by OP (R65) -/

/-- Every command that a word can decode to, by the word's OP field. -/
theorem decode_eq_command_iff {w : Word} {i : Instr} :
    decode w = .command i ↔ reservedSet w = false ∧
      ((opField w = 1#4 ∧ decodePrimitive w .rotl32 = .command i) ∨
        (opField w = 2#4 ∧ decodePrimitive w .mix2 = .command i) ∨
        (opField w = 3#4 ∧ decodePrimitive w .mix3 = .command i) ∨
        (opField w = 4#4 ∧ decodeHash w .m2h .m2hS = .command i) ∨
        (opField w = 5#4 ∧ decodeHash w .m3h .m3hS = .command i) ∨
        (opField w = 6#4 ∧ i = decodeComb w)) := by
  unfold decode
  cases reservedSet w with
  | true => simp
  | false =>
    obtain ⟨⟨op, hop⟩⟩ := opField w
    simp only [Bool.false_eq_true, if_false, true_and, BitVec.toNat_ofFin]
    interval_cases op <;> simp [eq_comm (b := decodeComb w)]

/-! ## Decoding an encoded command -/

theorem arityOk_iff {n : Nat} : arityOk n = true ↔ 1 ≤ n ∧ n ≤ 8 := by simp [arityOk]

/-- R60: NM1 holds n - 1 for every arity of 1..8. -/
theorem toNat_nm1_of_arityOk {n : Nat} (h : arityOk n = true) :
    (BitVec.ofNat 3 (n - 1)).toNat = n - 1 := by
  have range := arityOk_iff.1 h
  rw [BitVec.toNat_ofNat]
  omega

theorem decode_cmd32_comb (sel : Bool) {n : Nat} (h : arityOk n = true) (absent : BitVec 8) :
    decode (cmd32 6 sel (BitVec.ofNat 3 (n - 1)) absent) =
      .command (if sel then .combS n absent else .comb n absent) := by
  have arity : (BitVec.ofNat 3 (n - 1)).toNat + 1 = n := by
    rw [toNat_nm1_of_arityOk h, Nat.sub_add_cancel (arityOk_iff.1 h).1]
  simp only [decode_eq_command_iff, decodeComb, opField_cmd32, seedselField_cmd32, nm1Field_cmd32,
    absentField_cmd32, reservedSet_cmd32, arity]
  simp

theorem decode_encode {i : Instr} (h : i.wellFormed = true) : decode (encode i) = .command i := by
  cases i with
  | comb n absent => exact decode_cmd32_comb false h absent
  | combS n absent => exact decode_cmd32_comb true h absent
  | _ => decide

/-! ## The word of a decoded command -/

section
variable {w : Word} (hr : reservedSet w = false)
include hr

/-- A word whose NM1, ABSENT and reserved bits are 0 is the word of its OP and SEEDSEL. -/
theorem cmd32_of_op_seedsel (hc : combFieldSet w = false) :
    cmd32 (opField w) (seedselField w) 0 0 = w := by
  obtain ⟨hn, ha⟩ := (combFieldSet_eq_false w).1 hc
  have rebuilt := cmd32_of_fields hr
  rwa [hn, ha] at rebuilt

theorem encode_of_decodePrimitive {i j : Instr} (hi : encode i = cmd32 (opField w) false 0 0)
    (h : decodePrimitive w i = .command j) : encode j = w := by
  obtain ⟨hs, hc, rfl⟩ := (decodePrimitive_eq_command w i j).1 h
  rw [hi, ← hs, cmd32_of_op_seedsel hr hc]

theorem encode_of_decodeHash {p q j : Instr} (hp : encode p = cmd32 (opField w) false 0 0)
    (hq : encode q = cmd32 (opField w) true 0 0) (h : decodeHash w p q = .command j) :
    encode j = w := by
  obtain ⟨hc, rfl⟩ := (decodeHash_eq_command w p q j).1 h
  have rebuilt := cmd32_of_op_seedsel hr hc
  cases hs : seedselField w with
  | false => rw [hs, ← hp] at rebuilt; exact rebuilt
  | true => rw [hs, ← hq] at rebuilt; exact rebuilt

/-- In both combiner forms the arity is NM1 + 1, so that NM1 is the arity less 1. -/
theorem encode_decodeComb (hop : opField w = 6#4) : encode (decodeComb w) = w := by
  have rebuilt := cmd32_of_fields hr
  rw [hop] at rebuilt
  unfold decodeComb
  cases hs : seedselField w with
  | false => simpa [encode, hs] using rebuilt
  | true => simpa [encode, hs] using rebuilt

end

theorem encode_of_decode {w : Word} {i : Instr} (h : decode w = .command i) : encode i = w := by
  obtain ⟨hr, h⟩ := decode_eq_command_iff.1 h
  rcases h with ⟨hop, h⟩ | ⟨hop, h⟩ | ⟨hop, h⟩ | ⟨hop, h⟩ | ⟨hop, h⟩ | ⟨hop, rfl⟩
  · exact encode_of_decodePrimitive hr (by rw [hop]; rfl) h
  · exact encode_of_decodePrimitive hr (by rw [hop]; rfl) h
  · exact encode_of_decodePrimitive hr (by rw [hop]; rfl) h
  · exact encode_of_decodeHash hr (by rw [hop]; rfl) (by rw [hop]; rfl) h
  · exact encode_of_decodeHash hr (by rw [hop]; rfl) (by rw [hop]; rfl) h
  · exact encode_decodeComb hr hop

/-! ## Decoded commands are well formed (R60) -/

theorem decodePrimitive_wellFormed {w : Word} {i j : Instr} (hi : i.wellFormed = true)
    (h : decodePrimitive w i = .command j) : j.wellFormed = true := by
  obtain ⟨-, -, rfl⟩ := (decodePrimitive_eq_command w i j).1 h
  exact hi

theorem decodeHash_wellFormed {w : Word} {p q j : Instr} (hp : p.wellFormed = true)
    (hq : q.wellFormed = true) (h : decodeHash w p q = .command j) : j.wellFormed = true := by
  obtain ⟨-, rfl⟩ := (decodeHash_eq_command w p q j).1 h
  cases seedselField w with
  | false => exact hp
  | true => exact hq

theorem decodeComb_wellFormed (w : Word) : (decodeComb w).wellFormed = true := by
  unfold decodeComb
  cases seedselField w with
  | false => exact arityOk_nm1 (nm1Field w)
  | true => exact arityOk_nm1 (nm1Field w)

theorem wellFormed_of_decode {w : Word} {i : Instr} (h : decode w = .command i) :
    i.wellFormed = true := by
  obtain ⟨-, h⟩ := decode_eq_command_iff.1 h
  rcases h with ⟨-, h⟩ | ⟨-, h⟩ | ⟨-, h⟩ | ⟨-, h⟩ | ⟨-, h⟩ | ⟨-, rfl⟩
  · exact decodePrimitive_wellFormed rfl h
  · exact decodePrimitive_wellFormed rfl h
  · exact decodePrimitive_wellFormed rfl h
  · exact decodeHash_wellFormed rfl rfl h
  · exact decodeHash_wellFormed rfl rfl h
  · exact decodeComb_wellFormed w

/-! ## The opcode table -/

theorem encode_and_mask {i : Instr} (h : i.wellFormed = true) :
    encode i &&& i.row.mask = i.row.pattern := by
  cases i with
  | rotl32 => exact Laws.EncodeRow.rotl32 h
  | mix2 => exact Laws.EncodeRow.mix2 h
  | mix3 => exact Laws.EncodeRow.mix3 h
  | m2h => exact Laws.EncodeRow.m2h h
  | m2hS => exact Laws.EncodeRow.m2hS h
  | m3h => exact Laws.EncodeRow.m3h h
  | m3hS => exact Laws.EncodeRow.m3hS h
  | comb n absent => exact Laws.EncodeRow.comb n absent h
  | combS n absent => exact Laws.EncodeRow.combS n absent h

theorem row_mem_opcodeTable (i : Instr) : i.row ∈ opcodeTable := by
  cases i <;> simp [opcodeTable, Instr.row]

/-- Seven of the nine rows have the full mask, and so match one word only. -/
theorem decode_of_and_full_mask {w : Word} {i : Instr} (hm : i.row.mask = BitVec.allOnes 32)
    (hd : decode i.row.pattern = .command i) (h : w &&& i.row.mask = i.row.pattern) :
    decode w = .command i := by
  rw [hm, BitVec.and_allOnes] at h
  rw [h, hd]

/-- The combiner's mask keeps OP, SEEDSEL and the reserved bits. -/
theorem fields_and_comb_mask (w : Word) :
    opField (w &&& 0xFF00F8FF#32) = opField w ∧
      seedselField (w &&& 0xFF00F8FF#32) = seedselField w ∧
      reservedSet (w &&& 0xFF00F8FF#32) = reservedSet w := by
  have op : (0xFF00F8FF#32).extractLsb' 0 4 = BitVec.allOnes 4 := rfl
  have low : (0xFF00F8FF#32).extractLsb' 5 3 = BitVec.allOnes 3 := rfl
  have middle : (0xFF00F8FF#32).extractLsb' 11 5 = BitVec.allOnes 5 := rfl
  have high : (0xFF00F8FF#32).extractLsb' 24 8 = BitVec.allOnes 8 := rfl
  refine ⟨?_, ?_, ?_⟩
  · rw [opField, BitVec.extractLsb'_and, op, BitVec.and_allOnes, opField]
  · simp [seedselField]
  · simp only [reservedSet, BitVec.extractLsb'_and, low, middle, high, BitVec.and_allOnes]

theorem decode_of_and_comb_mask {w : Word} {sel : Bool}
    (h : w &&& 0xFF00F8FF#32 = cmd32 6 sel 0 0) : decode w = .command (decodeComb w) ∧
      seedselField w = sel := by
  obtain ⟨op, seedsel, reserved⟩ := fields_and_comb_mask w
  rw [h] at op seedsel reserved
  rw [opField_cmd32] at op
  rw [seedselField_cmd32] at seedsel
  rw [reservedSet_cmd32] at reserved
  refine ⟨decode_eq_command_iff.2 ⟨reserved.symm, ?_⟩, seedsel.symm⟩
  simp [← op]

theorem exists_decode_of_row {w : Word} {row : OpcodeRow} (hrow : row ∈ opcodeTable)
    (h : w &&& row.mask = row.pattern) : ∃ i, decode w = .command i ∧ i.row = row := by
  simp only [opcodeTable, List.mem_cons, List.not_mem_nil, or_false] at hrow
  rcases hrow with rfl | rfl | rfl | rfl | rfl | rfl | rfl | rfl | rfl
  iterate 7 exact ⟨_, decode_of_and_full_mask rfl rfl h, rfl⟩
  · obtain ⟨hd, hs⟩ := decode_of_and_comb_mask (sel := false) h
    exact ⟨_, hd, by simp [decodeComb, hs, Instr.row]⟩
  · obtain ⟨hd, hs⟩ := decode_of_and_comb_mask (sel := true) h
    exact ⟨_, hd, by simp [decodeComb, hs, Instr.row]⟩

/-! ## The illegal words (R62, R63) -/

theorem extractLsb'_eq_zero_iff {w : Word} {start len : Nat} :
    w.extractLsb' start len = 0#len ↔ ∀ j, j < len → w.getLsbD (start + j) = false := by
  constructor
  · intro h j hj
    have bit := congrArg (BitVec.getLsbD · j) h
    simpa [hj] using bit
  · intro h
    apply BitVec.eq_of_getLsbD_eq
    intro j hj
    simpa [hj] using h j hj

theorem and_eq_zero_iff {w mask : Word} :
    w &&& mask = 0#32 ↔ ∀ j, j < 32 → mask.getLsbD j = true → w.getLsbD j = false := by
  constructor
  · intro h j hj hm
    have bit := congrArg (BitVec.getLsbD · j) h
    simpa [hm] using bit
  · intro h
    apply BitVec.eq_of_getLsbD_eq
    intro j hj
    have bit := h j hj
    cases hm : mask.getLsbD j <;> simp_all

theorem reservedSet_eq_true_iff (w : Word) :
    reservedSet w = true ↔ w &&& 0xFF00F8E0#32 ≠ 0#32 := by
  rw [← not_iff_not, ne_eq, not_not, Bool.not_eq_true, and_eq_zero_iff]
  simp only [reservedSet, Bool.or_eq_false_iff, bne_eq_false_iff_eq, extractLsb'_eq_zero_iff,
    Nat.forall_lt_succ_right]
  simp [and_assoc]

theorem combFieldSet_eq_true_iff (w : Word) :
    combFieldSet w = true ↔ w &&& 0x00FF0700#32 ≠ 0#32 := by
  rw [← not_iff_not, ne_eq, not_not, Bool.not_eq_true, and_eq_zero_iff]
  simp only [combFieldSet_eq_false, nm1Field, absentField, extractLsb'_eq_zero_iff,
    Nat.forall_lt_succ_right]
  simp [and_assoc]

theorem toNat_opField (w : Word) : (opField w).toNat = (w &&& 15#32).toNat := by
  simpa [opField] using (Nat.and_two_pow_sub_one_eq_mod w.toNat 4).symm

/-- R62 and R63 in the decoder's own fields. -/
theorem decode_ne_command_iff {w : Word} : (∀ i, decode w ≠ .command i) ↔
    (opField w).toNat = 0 ∨ 7 ≤ (opField w).toNat ∨ reservedSet w = true ∨
      ((opField w).toNat ≤ 3 ∧ seedselField w = true) ∨
      ((opField w).toNat ≤ 5 ∧ combFieldSet w = true) := by
  rw [← not_exists]
  simp only [decode_eq_command_iff, decodePrimitive_eq_command, decodeHash_eq_command]
  cases reservedSet w with
  | true => simp
  | false =>
    obtain ⟨⟨op, hop⟩⟩ := opField w
    interval_cases op <;> simp [← Bool.not_eq_true, imp_iff_not_or]

end Sys2Proof

namespace Sys2Proof.Machine

/-- Settles O25. -/
theorem decodeOfEncodeIsTheCommand : Obligations.DecodeOfEncodeIsTheCommand :=
  fun _ => decode_encode

/-- Settles O26. -/
theorem encodeOfDecodeIsTheWord : Obligations.EncodeOfDecodeIsTheWord :=
  fun _ _ => encode_of_decode

/-- Settles O27: a decoded word is its command's encoded word, which matches its row; and a word that
matches two rows would decode to a command of each. -/
theorem decodeAgreesWithOpcodeTable : Obligations.DecodeAgreesWithOpcodeTable := by
  refine ⟨fun w i h => ⟨row_mem_opcodeTable i, ?_⟩, fun w row => exists_decode_of_row,
    fun w r r' hr hr' h h' => ?_⟩
  · have matched := encode_and_mask (wellFormed_of_decode h)
    rwa [encode_of_decode h] at matched
  · obtain ⟨i, hi, rfl⟩ := exists_decode_of_row hr h
    obtain ⟨j, hj, rfl⟩ := exists_decode_of_row hr' h'
    rw [hi] at hj
    cases hj
    rfl

theorem runCommand_of_ne_command {w : Word} (h : ∀ i, decode w ≠ .command i) (s : State) :
    runCommand w s = .next (raise .illegalCommand s) := by
  cases hd : decode w with
  | command i => exact absurd hd (h i)
  | illegal why => exact runCommand_of_illegal hd s

/-- Settles O28: the masks of the statement are those of the decoder's fields. -/
theorem illegalWordsAreExactlyThese : Obligations.IllegalWordsAreExactlyThese := by
  refine ⟨fun w => ?_, fun w s h => runCommand_of_ne_command h s,
    fun s => runCommand_of_illegal (why := .illegalOp) (by decide) s⟩
  rw [← toNat_opField, ← reservedSet_eq_true_iff, ← combFieldSet_eq_true_iff]
  exact decode_ne_command_iff

theorem combCommand_refused {n : Nat} (h : n = 0 ∨ 9 ≤ n) (seed : Word) (absent : BitVec 8)
    (s : State) : combCommand seed n absent s = .refused .combArityOutOfRange := by
  have bad : ¬ arityOk n = true := by rw [arityOk_iff]; omega
  rw [combCommand, if_neg bad]

/-- Settles O23. -/
theorem illFormedArityRefused : Obligations.IllFormedArityRefused :=
  ⟨fun _ absent s h => ⟨combCommand_refused h combDefaultSeed absent s,
    combCommand_refused h s.seed absent s⟩, fun _ _ => wellFormed_of_decode⟩

/-- Settles O29: each word is the one its command encodes to. -/
theorem sampleWordsDecode : Obligations.SampleWordsDecode :=
  ⟨decode_encode (i := .rotl32) rfl, decode_encode (i := .mix2) rfl, decode_encode (i := .mix3) rfl,
    decode_encode (i := .m2h) rfl, decode_encode (i := .m2hS) rfl, decode_encode (i := .m3h) rfl,
    decode_encode (i := .m3hS) rfl, decode_encode (i := .comb 8 0) rfl,
    decode_encode (i := .combS 5 2) rfl⟩

/-- Settles O54: the line holds the command's word, which decodes to the command. -/
theorem cmdLineRunsItsCommand : Obligations.CmdLineRunsItsCommand := by
  refine ⟨fun i => hostCmd_eq_none, fun i a s rest ha hp => ?_⟩
  obtain ⟨hi, rfl⟩ := hostCmd_eq_some.1 ha
  exact step_write_cmd hp (decode_encode hi)

end Sys2Proof.Machine

/-! Proofs about what a command reads: its operands (R66), the ABSENT mask (R61) and the two sources of
a seed (R59). -/

namespace Sys2Proof.Machine

/-! ## Outcomes that agree -/

theorem sameOutcome_succeed {v v' : Word} (h : v = v') (s s' : State) :
    SameOutcome (.next (succeed v s)) (.next (succeed v' s')) := by
  simp [SameOutcome, h]

theorem sameOutcome_raise (e : ErrorKind) (s s' : State) :
    SameOutcome (.next (raise e s)) (.next (raise e s')) := by
  simp [SameOutcome]

/-! ## ROTL32 (R73, R74) -/

theorem rotl32_congr_count (x : Word) {c c' : Word} (h : c &&& 31#32 = c' &&& 31#32) :
    rotl32 x c = rotl32 x c' := by
  simp only [rotl32, h]

theorem sameOutcome_rotateCommand {oob : RotlOob} {s s' : State} (hopa : s.opa = s'.opa)
    (hopb : s.opb &&& 31#32 = s'.opb &&& 31#32) (hfault : oob = .fault → s.opb = s'.opb) :
    SameOutcome (rotateCommand oob s) (rotateCommand oob s') := by
  have rotated : rotl32 s.opa s.opb = rotl32 s'.opa s'.opb := by
    rw [hopa, rotl32_congr_count _ hopb]
  cases oob with
  | mask => exact sameOutcome_succeed rotated s s'
  | fault =>
    rw [rotateCommand, rotateCommand, ← hfault rfl]
    split
    · exact sameOutcome_succeed (by rw [hopa]) s s'
    · rfl

/-! ## The hash commands (R45, R87) -/

theorem Memory.readBytes_congr {m m' : Memory} {a n : Nat}
    (h : ∀ j, j < n → m.read (a + j) = m'.read (a + j)) : m.readBytes a n = m'.readBytes a n := by
  induction n generalizing a with
  | zero => rfl
  | succ n ih =>
    have first : m.read a = m'.read a := h 0 (Nat.succ_pos n)
    have others : m.readBytes (a + 1) n = m'.readBytes (a + 1) n := ih fun j hj => by
      rw [Nat.add_assoc, Nat.add_comm 1 j]
      exact h (j + 1) (Nat.succ_lt_succ hj)
    rw [readBytes_succ, readBytes_succ, first, others]

theorem inputBuffer_congr {s s' : State} (h : SameInput s s') : inputBuffer s = inputBuffer s' := by
  obtain ⟨hvalid, hbytes⟩ := h
  have hvalid : bufValid s = bufValid s' := hvalid
  cases hv : bufValid s with
  | false => rw [inputBuffer_absent.2 hv, inputBuffer_absent.2 (hvalid ▸ hv)]
  | true =>
    obtain ⟨hlen, hread⟩ := hbytes hv
    have bytes : s.buf.readBytes 0 s.bufLen.toNat = s'.buf.readBytes 0 s'.bufLen.toNat := by
      rw [← hlen]
      exact Memory.readBytes_congr fun j hj => by rw [Nat.zero_add]; exact hread j hj
    simp only [inputBuffer, ← hvalid, hv, bytes]

/-- The seed reaches a hash command's outcome only where the buffer is present. -/
theorem sameOutcome_hashCommand {f f' : List Byte → Word} {s s' : State} (h : SameInput s s')
    (hf : bufValid s = true → f = f') : SameOutcome (hashCommand f s) (hashCommand f' s') := by
  have input := inputBuffer_congr h
  cases hi : inputBuffer s with
  | absent =>
    rw [hashCommand_absent f (inputBuffer_absent.1 hi),
      hashCommand_absent f' (inputBuffer_absent.1 (input ▸ hi))]
    exact sameOutcome_raise .nullInput s s'
  | unwritten =>
    rw [hashCommand_unwritten f hi, hashCommand_unwritten f' (input ▸ hi)]
    rfl
  | present data =>
    rw [hashCommand_present f hi, hashCommand_present f' (input ▸ hi),
      hf (inputBuffer_present.1 hi).1]
    exact sameOutcome_succeed rfl s s'

/-! ## The combiner (R102 to R104) -/

section
variable {n : Nat} {hc hc' : Fin 8 → Word} (h : ∀ k : Fin 8, k.val < n → hc k = hc' k)
include h

theorem queueFold_congr (lo : Nat) (hash : Word) :
    queueFold lo n hc hash = queueFold lo n hc' hash := by
  refine List.foldl_ext _ _ _ fun acc k _ => ?_
  split
  next hk => rw [h k hk.2]
  next => rfl

/-- The combiner reads the component hashes below the arity only. -/
theorem combine_congr (seed : Word) : combine seed n hc = combine seed n hc' := by
  unfold combine
  split
  · rw [combineFew, combineFew, queueFold_congr h]
  · have h0 := h 0 (by simp; omega)
    have h1 := h 1 (by simp; omega)
    have h2 := h 2 (by simp; omega)
    have h3 := h 3 (by simp; omega)
    split
    · simp only [combineLanes, h0, h1, h2, h3, queueFold_congr h]
    · have h4 := h 4 (by simp; omega)
      have h5 := h 5 (by simp; omega)
      have h6 := h 6 (by simp; omega)
      have h7 := h 7 (by simp; omega)
      simp only [combineEight, h0, h1, h2, h3, h4, h5, h6, h7]

end

theorem componentHash_of_absent {absent : BitVec 8} {k : Fin 8} (h : absent.getLsbD k.val = true)
    (s : State) : componentHash s absent k = 0#32 := by
  simp [componentHash, h]

theorem componentHash_congr {n : Nat} {absent : BitVec 8} {s s' : State}
    (h : SameComponents n absent s s') {k : Fin 8} (hk : k.val < n) :
    componentHash s absent k = componentHash s' absent k := by
  cases ha : absent.getLsbD k.val with
  | true => rw [componentHash_of_absent ha, componentHash_of_absent ha]
  | false => simp only [componentHash, ha, h k hk ha]

theorem combCommand_of_arityOk {n : Nat} (h : arityOk n = true) (seed : Word) (absent : BitVec 8)
    (s : State) : combCommand seed n absent s =
      .next (succeed (combine seed n (componentHash s absent)) s) := by
  rw [combCommand, if_pos h]

theorem sameOutcome_combCommand {n : Nat} {absent : BitVec 8} {s s' : State}
    (h : SameComponents n absent s s') (seed : Word) :
    SameOutcome (combCommand seed n absent s) (combCommand seed n absent s') := by
  unfold combCommand
  split
  · exact sameOutcome_succeed (combine_congr (fun _ => componentHash_congr h) seed) s s'
  · rfl

/-- R61: ABSENT bits at and above the arity are ignored. -/
theorem combCommand_congr_absent {n : Nat} {absent absent' : BitVec 8}
    (h : ∀ k, k < n → absent.getLsbD k = absent'.getLsbD k) (seed : Word) (s : State) :
    combCommand seed n absent s = combCommand seed n absent' s := by
  have components : ∀ k : Fin 8, k.val < n →
      componentHash s absent k = componentHash s absent' k :=
    fun k hk => by rw [componentHash, componentHash, h k.val hk]
  rw [combCommand, combCommand, combine_congr components]

/-- R61: HCk of an absent component is no operand. -/
theorem sameComponents_set_of_absent {absent : BitVec 8} {k : Fin 8}
    (h : absent.getLsbD k.val = true) (n : Nat) (s : State) (w : Word) :
    SameComponents n absent s { s with hc := s.hc.set k w } := by
  intro j _ hj
  have hne : k.val ≠ j.val := fun e => by rw [e, hj] at h; cases h
  exact (Vector.getElem_set_ne k.isLt j.isLt hne).symm

/-! ## The seeded forms (R59) -/

theorem exec_m2hS (s : State) :
    exec .m2hS s = hashCommand (murmur2 params.m2Tail3 s.seed) s := rfl

theorem exec_m3hS (s : State) :
    exec .m3hS s = hashCommand (murmur3 params.m3H1Init s.seed) s := rfl

theorem exec_combS (n : Nat) (absent : BitVec 8) (s : State) :
    exec (.combS n absent) s = combCommand s.seed n absent s := rfl

/-! ## Each command's outcome by the operands it reads -/

theorem sameOutcome_exec {i : Instr} {s s' : State} (h : SameOperands i s s') :
    SameOutcome (exec i s) (exec i s') := by
  cases i with
  | rotl32 =>
    obtain ⟨hopa, hopb, hfault⟩ := h
    exact sameOutcome_rotateCommand hopa hopb hfault
  | mix2 => exact sameOutcome_succeed (congrArg mixFinalMurmur2 h) s s'
  | mix3 => exact sameOutcome_succeed (congrArg mixFinalMurmur3 h) s s'
  | m2h => exact sameOutcome_hashCommand h fun _ => rfl
  | m2hS =>
    obtain ⟨hinput, hseed⟩ := h
    exact sameOutcome_hashCommand hinput fun hv => congrArg (murmur2 params.m2Tail3) (hseed hv)
  | m3h => exact sameOutcome_hashCommand h fun _ => rfl
  | m3hS =>
    obtain ⟨hinput, hseed⟩ := h
    exact sameOutcome_hashCommand hinput fun hv => congrArg (murmur3 params.m3H1Init) (hseed hv)
  | comb n absent => exact sameOutcome_combCommand h combDefaultSeed
  | combS n absent =>
    obtain ⟨hcomponents, hseed⟩ := h
    rw [exec_combS, exec_combS, ← hseed]
    exact sameOutcome_combCommand hcomponents s.seed

/-! ## The obligations -/

/-- Settles O24. -/
theorem commandDependsOnlyOnItsOperands : Obligations.CommandDependsOnlyOnItsOperands :=
  fun _ _ _ => sameOutcome_exec

/-- Settles O43: a write of an absent HCk changes no operand (O24), and the combiner reads no mask bit at
or above the arity. -/
theorem absentMaskMeaning : Obligations.AbsentMaskMeaning := by
  refine ⟨fun s n absent k w _ ha => ?_, fun s n absent absent' h => ?_⟩
  · have same := sameComponents_set_of_absent ha n s w
    exact ⟨componentHash_of_absent ha s, sameOutcome_exec (i := .comb n absent) same,
      sameOutcome_exec (i := .combS n absent) ⟨same, rfl⟩⟩
  · refine ⟨combCommand_congr_absent h combDefaultSeed s, combCommand_congr_absent h s.seed s,
      fun hlo hhi => ?_⟩
    have arity := arityOk_iff.2 ⟨hlo, hhi⟩
    exact ⟨⟨_, combCommand_of_arityOk arity combDefaultSeed absent' s⟩,
      ⟨_, combCommand_of_arityOk arity s.seed absent' s⟩⟩

/-- Settles O45. -/
theorem explicitDefaultSeedGivesThePlainForm : Obligations.ExplicitDefaultSeedGivesThePlainForm := by
  refine ⟨fun s h => ⟨?_, ?_⟩, fun s n absent h => ?_⟩
  · rw [exec_m2hS, h]; rfl
  · rw [exec_m3hS, h]; rfl
  · rw [exec_combS, h]; rfl

end Sys2Proof.Machine

/-! Proofs about the host's lines (R67 to R69): byte writes, `wrb`, `ldbuf`, `nullbuf`, `clrerr`, ROTR32
and the assembled combiner lines. -/

namespace Sys2Proof.Machine

/-! ## Single steps -/

theorem runsTo_one {s t : State} : runsTo 1 s t ↔ step s = .next t := by
  rw [runsTo_succ]
  constructor
  · rintro ⟨u, hu, h⟩
    rwa [← (runsTo_zero u t).1 h]
  · exact fun h => ⟨t, h, (runsTo_zero t t).2 rfl⟩

theorem step_writeReg {s : State} {r : Reg} {w : Word} {rest : List HostAccess} (hr : r ≠ .cmd)
    (hp : s.pending = .write r w :: rest) :
    step s = .next (writeReg r w { s with pending := rest }) := by
  rw [step_cons hp]
  exact hostWrite_of_ne_cmd hr w { s with pending := rest }

theorem runsTo_writeReg {k : Nat} {s t : State} {r : Reg} {w : Word} {rest : List HostAccess}
    (hr : r ≠ .cmd) (hp : s.pending = .write r w :: rest)
    (h : runsTo k (writeReg r w { s with pending := rest }) t) : runsTo (k + 1) s t :=
  (runsTo_succ k s t).2 ⟨_, step_writeReg hr hp, h⟩

theorem step_writeByte {s : State} {off : Word} {b : Byte} {rest : List HostAccess}
    (hp : s.pending = .writeByte off b :: rest) :
    step s = .next (writeBuf off b { s with pending := rest }) := step_cons hp

/-- A register write other than CMD leaves every other register as it was. -/
theorem readReg_step_writeReg {r r' : Reg} (h : r' ≠ r) (w : Word) (s : State)
    (rest : List HostAccess) :
    readReg (writeReg r w { s with pending := rest }) r' = readReg s r' := by
  rw [readReg_writeReg_of_ne h]
  exact readReg_hostSide s rest s.replies r'

/-! ## A row of byte writes (R49, R68) -/

/-- BUF after the bytes are written at `off`, `off + 1`, ... in order. -/
def Memory.writeBytes (m : Memory) (off : Nat) : List Byte → Memory
  | [] => m
  | b :: rest => (m.write off b).writeBytes (off + 1) rest

theorem Memory.read_writeBytes_outside {off a : Nat} {bytes : List Byte} (m : Memory)
    (h : a < off ∨ off + bytes.length ≤ a) : (m.writeBytes off bytes).read a = m.read a := by
  induction bytes generalizing m off with
  | nil => rfl
  | cons b bytes ih =>
    rw [List.length_cons] at h
    rw [writeBytes, ih (m.write off b) (by omega), read_write_other m b (by omega)]

theorem Memory.read_writeBytes_inside {off j : Nat} {bytes : List Byte} (m : Memory)
    (h : j < bytes.length) : (m.writeBytes off bytes).read (off + j) = some bytes[j] := by
  induction bytes generalizing m off j with
  | nil => exact absurd h (Nat.not_lt_zero j)
  | cons b bytes ih =>
    rw [writeBytes]
    cases j with
    | zero => rw [read_writeBytes_outside _ (by omega), Nat.add_zero, read_write_same]; rfl
    | succ j =>
      rw [← Nat.add_assoc, Nat.add_right_comm]
      exact ih (m.write off b) (Nat.lt_of_succ_lt_succ h)

/-- `byteWrites` runs one step a byte and does to the state what `Memory.writeBytes` does to BUF. -/
theorem runsTo_byteWrites {off : Nat} {bytes : List Byte} {s : State} {rest : List HostAccess}
    (hfit : off + bytes.length ≤ 4294967296) (hp : s.pending = byteWrites off bytes ++ rest) :
    runsTo bytes.length s { s with pending := rest, buf := s.buf.writeBytes off bytes } := by
  induction bytes generalizing off s with
  | nil =>
    rw [List.length_nil, runsTo_zero]
    rw [byteWrites, List.nil_append] at hp
    rw [Memory.writeBytes, ← hp]
  | cons b bytes ih =>
    rw [List.length_cons] at hfit
    have first := step_writeByte hp
    have inside : (BitVec.ofNat 32 off).toNat = off := toNat_literal off (by omega)
    have others := ih (off := off + 1) (by omega)
      (writeBuf_pending (BitVec.ofNat 32 off) b { s with pending := byteWrites (off + 1) bytes ++ rest })
    rw [writeBuf_buf, inside] at others
    exact (runsTo_succ _ _ _).2 ⟨_, first, others⟩

/-- R69: the bytes from offset 0 on, then BUF_LEN, then BUF_CTRL. -/
theorem runsTo_ldbuf {bytes : List Byte} {s : State} {line rest : List HostAccess}
    (h : ldbuf bytes = some line) (hp : s.pending = line ++ rest) :
    runsTo (bytes.length + 2) s { s with
      pending := rest, buf := s.buf.writeBytes 0 bytes
      bufLen := BitVec.ofNat 32 bytes.length, bufCtrl := 1#32 } := by
  obtain ⟨hlen, rfl⟩ := ldbuf_eq_some.1 h
  rw [List.append_assoc] at hp
  have written := runsTo_byteWrites (by omega) hp
  refine runsTo_add written (runsTo_writeReg (r := .bufLen) (by decide) rfl ?_)
  exact runsTo_writeReg (r := .bufCtrl) (by decide) rfl ((runsTo_zero _ _).2 rfl)

/-! ## ROTR32 (R69) -/

theorem toNat_and_thirtyOne (c : Word) : (c &&& 31#32).toNat = c.toNat % 32 := by
  rw [BitVec.toNat_and]
  exact Nat.and_two_pow_sub_one_eq_mod c.toNat 5

/-- R73: `rotl32` is the rotation by the count modulo 32. Its shift to the right is by 0 for the count
0, where the library's is by 32; both give the value back. -/
theorem rotl32_eq_rotateLeft (x c : Word) : rotl32 x c = x.rotateLeft (c.toNat % 32) := by
  have hlt : c.toNat % 32 < 32 := Nat.mod_lt _ (by decide)
  rw [rotl32, toNat_and_thirtyOne]
  generalize c.toNat % 32 = n at hlt ⊢
  rw [BitVec.rotateLeft_def, Nat.mod_eq_of_lt hlt]
  cases n with
  | zero => simp [BitVec.ushiftRight_eq_zero]
  | succ n => rw [Nat.mod_eq_of_lt (by omega : 32 - (n + 1) < 32)]

theorem rotateLeft_complement (x : Word) {n : Nat} (h : n < 32) :
    x.rotateLeft ((32 - n) % 32) = x.rotateRight n := by
  rw [BitVec.rotateLeft_def, BitVec.rotateRight_def, Nat.mod_eq_of_lt h, Nat.mod_mod]
  cases n with
  | zero => simp [BitVec.ushiftRight_eq_zero]
  | succ n =>
    rw [Nat.mod_eq_of_lt (by omega : 32 - (n + 1) < 32), Nat.sub_sub_self (by omega),
      BitVec.or_comm]

/-- R69: the count that ROTR32 writes to OPB is the complement of `c`, modulo 32. -/
theorem toNat_neg_and_thirtyOne (c : Word) :
    ((0#32 - c) &&& 31#32).toNat = (32 - c.toNat % 32) % 32 := by
  have hlt := c.isLt
  rw [toNat_and_thirtyOne, BitVec.toNat_sub, BitVec.toNat_ofNat]
  omega

theorem rotl32_neg_count (x c : Word) :
    rotl32 x ((0#32 - c) &&& 31#32) = x.rotateRight (c.toNat % 32) := by
  rw [rotl32_eq_rotateLeft, toNat_neg_and_thirtyOne, Nat.mod_mod]
  exact rotateLeft_complement x (Nat.mod_lt _ (by decide))

theorem exec_rotl32_of_mask (h : params.rotlOob = .mask) (s : State) :
    exec .rotl32 s = .next (succeed (rotl32 s.opa s.opb) s) := by
  rw [exec, execRotl32, h, rotateCommand]

/-! ## Command lines (R67) -/

theorem assemble_comb {l : AsmLine} (h : l.mnemonic.map Char.toUpper = ['C', 'O', 'M', 'B']) :
    assemble l = assembleComb .comb l := by
  simp [assemble, h]

theorem assemble_combS {l : AsmLine}
    (h : l.mnemonic.map Char.toUpper = ['C', 'O', 'M', 'B', '.', 'S']) :
    assemble l = assembleComb .combS l := by
  simp [assemble, h]

theorem assembleComb_of_mask (mk : Nat → BitVec 8 → Instr) (mnemonic : List Char) (n m : Nat) :
    assembleComb mk { mnemonic := mnemonic, n := some n, absent := some m } =
      if 1 ≤ n ∧ n ≤ 8 ∧ m < 256 then some (mk n (BitVec.ofNat 8 m)) else none := by
  simp [assembleComb, arityOk_iff, and_assoc]

theorem assembleComb_of_no_mask (mk : Nat → BitVec 8 → Instr) (mnemonic : List Char) (n : Nat) :
    assembleComb mk { mnemonic := mnemonic, n := some n, absent := none } =
      if 1 ≤ n ∧ n ≤ 8 then some (mk n 0#8) else none := by
  simp [assembleComb, arityOk_iff]

/-! ## The obligations -/

/-- Settles O34: the first step leaves the negated count in OPB, the second rotates left by it. -/
theorem rotatePseudoInstructionRotatesRight : Obligations.RotatePseudoInstructionRotatesRight := by
  intro hmask s c rest hp
  have command := step_write_cmd (s := writeReg .opb ((0#32 - c) &&& 31#32)
    { s with pending := .write .cmd (encode .rotl32) :: rest }) rfl (decode_encode (i := .rotl32) rfl)
  rw [exec_rotl32_of_mask hmask] at command
  refine ⟨_, runsTo_writeReg (r := .opb) (by decide) hp (runsTo_one.2 command), ?_, rfl,
    statusErr_onSuccess _⟩
  exact rotl32_neg_count s.opa c

/-- Settles O48: the state that `ldbuf` leaves is named by `runsTo_ldbuf`. -/
theorem ldbufMakesTheInput : Obligations.LdbufMakesTheInput := by
  refine ⟨fun bytes => ldbuf_eq_none, fun s bytes line rest hline hp => ?_⟩
  have hlen := (ldbuf_eq_some.1 hline).1
  refine ⟨_, runsTo_ldbuf hline hp, ⟨(by decide : (1#32).getLsbD 0 = true),
    (toNat_literal bytes.length hlen).symm, fun j hj => ?_⟩, rfl, rfl, fun r hctrl hlength => ?_⟩
  · have read := Memory.read_writeBytes_inside (off := 0) s.buf hj
    rwa [Nat.zero_add] at read
  · cases r with
    | bufCtrl => exact absurd rfl hctrl
    | bufLen => exact absurd rfl hlength
    | _ => rfl

/-- Settles O49: each line is one register write. -/
theorem nullbufAndClrerrExpand : Obligations.NullbufAndClrerrExpand := by
  refine ⟨fun s rest hp => ?_, fun s rest hp => ?_⟩
  · have written := step_writeReg (r := .bufCtrl) (by decide) hp
    exact ⟨_, runsTo_one.2 written, by simp, rfl,
      fun r hr => readReg_step_writeReg hr 0#32 s rest, fun _ => rfl⟩
  · have written := step_writeReg (r := .status) (by decide) hp
    exact ⟨_, runsTo_one.2 written, by simp, statusDone_onWrite 4#32 s.status,
      statusErr_onWrite 4#32 s.status, statusEcode_onWrite 4#32 s.status, rfl,
      fun r hr => readReg_step_writeReg hr 4#32 s rest, fun _ => rfl⟩

/-- Settles O50. -/
theorem combinerLineAssembles : Obligations.CombinerLineAssembles := by
  refine fun n m mnemonic => ⟨fun h => ⟨?_, ?_⟩, fun h => ⟨?_, ?_⟩, fun hlo hhi absent => ?_⟩
  · rw [assemble_comb h, assembleComb_of_mask]
  · rw [assemble_comb h, assembleComb_of_no_mask]
  · rw [assemble_combS h, assembleComb_of_mask]
  · rw [assemble_combS h, assembleComb_of_no_mask]
  · have nm1 := toNat_nm1_of_arityOk (arityOk_iff.2 ⟨hlo, hhi⟩)
    rw [encode, encode, nm1Field_cmd32, nm1Field_cmd32]
    exact ⟨nm1, nm1⟩

/-- Settles O53. -/
theorem wrbLineWritesItsBytes : Obligations.WrbLineWritesItsBytes := by
  refine ⟨fun off bytes => hostWriteBytes_eq_none, fun s off bytes line rest hline hp => ?_⟩
  obtain ⟨hfit, rfl⟩ := hostWriteBytes_eq_some.1 hline
  refine ⟨_, runsTo_byteWrites hfit hp, rfl, rfl, fun r => ?_,
    fun j hj => Memory.read_writeBytes_inside s.buf hj,
    fun a ha => Memory.read_writeBytes_outside s.buf ha⟩
  cases r <;> rfl

end Sys2Proof.Machine

/-! Proofs about the bit primitives: the rotation against the document's formula (R73), ROTL32 under both
values of ROTL_OOB (R74), and the two finalisers with their commands (R75 to R78). -/

namespace Sys2Proof

/-! ## The words of the primitive commands (R58) -/

/-- A command of the block has one word, the one it encodes to. -/
theorem decode_eq_command_iff_eq_encode {w : Word} {i : Instr} (hi : i.wellFormed = true) :
    decode w = .command i ↔ w = encode i :=
  ⟨fun h => (encode_of_decode h).symm, fun h => h ▸ decode_encode hi⟩

theorem encode_rotl32 : encode .rotl32 = 1#32 := rfl

theorem encode_mix2 : encode .mix2 = 2#32 := rfl

theorem encode_mix3 : encode .mix3 = 3#32 := rfl

end Sys2Proof

namespace Sys2Proof.Machine

/-! ## The rotation (R73) -/

/-- For a count in 1..31 both shifts of `rotl32` are by the formula's own amounts. -/
theorem toNat_rotl32 (x : Word) {c : Nat} (hlo : 1 ≤ c) (hhi : c ≤ 31) :
    (rotl32 x (BitVec.ofNat 32 c)).toNat = Reference.rotl x.toNat c := by
  have left : (BitVec.ofNat 32 c &&& 31#32).toNat = c := by
    rw [toNat_and_thirtyOne, toNat_literal c (by omega), Nat.mod_eq_of_lt (by omega)]
  have right : (32 - c) % 32 = 32 - c := Nat.mod_eq_of_lt (by omega)
  rw [rotl32, left, right, BitVec.toNat_or, toNat_shl, toNat_shr, Reference.rotl]

theorem rotl32_of_mod_eq_zero (x : Word) {c : Word} (h : c.toNat % 32 = 0) : rotl32 x c = x := by
  rw [rotl32_eq_rotateLeft, h, BitVec.rotateLeft_def]
  simp [BitVec.ushiftRight_eq_zero]

/-! ## ROTL32 (R74) -/

theorem exec_rotl32 (s : State) : exec .rotl32 s = rotateCommand params.rotlOob s := rfl

theorem rotateCountInRange_iff {c : Word} :
    rotateCountInRange c = true ↔ 1 ≤ c.toNat ∧ c.toNat ≤ 31 := by
  simp [rotateCountInRange]

theorem rotateCommand_mask (s : State) :
    rotateCommand .mask s = .next (succeed (s.opa.rotateLeft (s.opb.toNat % 32)) s) := by
  rw [rotateCommand, rotl32_eq_rotateLeft]

/-- ROTL_OOB does not matter for a count in range. -/
theorem rotateCommand_of_inRange (oob : RotlOob) {s : State} (h : rotateCountInRange s.opb = true) :
    rotateCommand oob s = rotateCommand .mask s := by
  cases oob with
  | mask => rfl
  | fault => exact if_pos h

theorem rotateCommand_fault_of_not_inRange {s : State} (h : ¬ rotateCountInRange s.opb = true) :
    rotateCommand .fault s = .fault .rotateCountOutOfRange := by
  rw [rotateCommand, if_neg h]

/-! ## The finalisers (R75, R77) -/

theorem toNat_mixFinalMurmur2 (h : Word) :
    (mixFinalMurmur2 h).toNat = Reference.mixFinalMurmur2 h.toNat := by
  have multiplier := toNat_literal 0x5bd1e995 (by norm_num)
  simp only [mixFinalMurmur2, Reference.mixFinalMurmur2, BitVec.toNat_xor, toNat_shr, toNat_mul_wrap,
    multiplier]

theorem toNat_mixFinalMurmur3 (h : Word) :
    (mixFinalMurmur3 h).toNat = Reference.mixFinalMurmur3 h.toNat := by
  have first := toNat_literal 0x85ebca6b (by norm_num)
  have second := toNat_literal 0xc2b2ae35 (by norm_num)
  simp only [mixFinalMurmur3, Reference.mixFinalMurmur3, BitVec.toNat_xor, toNat_shr, toNat_mul_wrap,
    first, second]

theorem exec_mix2 (s : State) : exec .mix2 s = .next (succeed (mixFinalMurmur2 s.opa) s) := rfl

theorem exec_mix3 (s : State) : exec .mix3 s = .next (succeed (mixFinalMurmur3 s.opa) s) := rfl

/-! ## The obligations -/

/-- Settles O30. -/
theorem rotateIsRotationByCountModThirtyTwo : Obligations.RotateIsRotationByCountModThirtyTwo :=
  ⟨rotl32_eq_rotateLeft, fun x _ hlo hhi => eq_ofNat_of_toNat (toNat_rotl32 x hlo hhi),
    fun x => ⟨rotl32_of_mod_eq_zero x rfl, rotl32_of_mod_eq_zero x rfl⟩⟩

/-- Settles O31: masked counts and counts in range give one outcome, whatever ROTL_OOB is. -/
theorem rotateCommandResult : Obligations.RotateCommandResult := by
  refine ⟨fun s h => ?_, rotateCommand_mask, fun s hlo hhi => ?_, fun s h => ?_,
    fun w => by rw [decode_eq_command_iff_eq_encode rfl, encode_rotl32]⟩
  · rw [exec_rotl32]
    rcases h with hmask | hrange
    · rw [hmask, rotateCommand_mask]
    · rw [rotateCommand_of_inRange _ (rotateCountInRange_iff.2 hrange), rotateCommand_mask]
  · rw [rotateCommand_of_inRange _ (rotateCountInRange_iff.2 ⟨hlo, hhi⟩), rotateCommand_mask,
      Nat.mod_eq_of_lt (by omega)]
  · exact rotateCommand_fault_of_not_inRange (by rw [rotateCountInRange_iff]; omega)

/-- Settles O32. -/
theorem mix2Result : Obligations.Mix2Result := by
  refine ⟨fun s => ?_, fun w => ?_⟩
  · rw [exec_mix2, eq_ofNat_of_toNat (toNat_mixFinalMurmur2 s.opa)]
  · rw [decode_eq_command_iff_eq_encode rfl, encode_mix2]

/-- Settles O33. -/
theorem mix3Result : Obligations.Mix3Result := by
  refine ⟨fun s => ?_, fun w => ?_⟩
  · rw [exec_mix3, eq_ofNat_of_toNat (toNat_mixFinalMurmur3 s.opa)]
  · rw [decode_eq_command_iff_eq_encode rfl, encode_mix3]

end Sys2Proof.Machine

/-! Proofs about MurmurHash2 (41_murmur2.md): the input walk on offsets, the block and the tail against the
spec's pseudocode (R80 to R83), and the commands M2H and M2H.S (R84 to R86). The lemmas about the input
and its walk hold for any hash. -/

namespace Sys2Proof.Machine

/-! ## The input of a hash command (R38) -/

theorem inputBuffer_of_inputIs {s : State} {data : List Byte} (h : InputIs s data) :
    inputBuffer s = .present data :=
  inputBuffer_of_bytes h.left h.right.left h.right.right

theorem inputIs_nil {s : State} (hv : s.bufCtrl.getLsbD 0 = true) (hl : s.bufLen = 0#32) :
    InputIs s [] :=
  ⟨hv, by rw [hl]; rfl, fun _ hj => absurd hj (Nat.not_lt_zero _)⟩

/-! ## Offsets into the input (R15) -/

theorem byteAt_drop (data : List Byte) (t a : Nat) :
    Reference.byteAt (data.drop t) a = Reference.byteAt data (t + a) := by
  simp [Reference.byteAt, List.getD_eq_getElem?_getD]

theorem memRead_drop (data : List Byte) (t a n : Nat) :
    Reference.memRead (data.drop t) a n = Reference.memRead data (t + a) n := by
  simp only [Reference.memRead, byteAt_drop, Nat.add_assoc]

theorem memRead_four_lt (data : List Byte) (a : Nat) : Reference.memRead data a 4 < 4294967296 := by
  have b0 := byteAt_lt data a
  have b1 := byteAt_lt data (a + 1)
  have b2 := byteAt_lt data (a + 2)
  have b3 := byteAt_lt data (a + 3)
  rw [memRead_four]
  omega

theorem littleEndian_four_eq_memRead (b0 b1 b2 b3 : Byte) (rest : List Byte) :
    littleEndian [b0, b1, b2, b3] =
      BitVec.ofNat 32 (Reference.memRead (b0 :: b1 :: b2 :: b3 :: rest) 0 4) :=
  eq_ofNat_of_toNat <| (toNat_littleEndian_four b0 b1 b2 b3).trans
    (memRead_four (b0 :: b1 :: b2 :: b3 :: rest) 0).symm

/-! ## The input walk on offsets (R83 step 4, R91 step 3) -/

/-- The blocks at offsets 0, 4, 8, ... folded into `h`, while at least 4 bytes remain. -/
def foldBlocks (block : Word → Word → Word) (h : Word) (data : List Byte) : Word :=
  (List.range (data.length / 4)).foldl
    (fun h b => block h (BitVec.ofNat 32 (Reference.memRead data (4 * b) 4))) h

/-- The first block, then the blocks of the bytes after it. -/
theorem foldBlocks_block (block : Word → Word → Word) (h : Word) (b0 b1 b2 b3 : Byte)
    (rest : List Byte) :
    foldBlocks block h (b0 :: b1 :: b2 :: b3 :: rest) =
      foldBlocks block (block h (littleEndian [b0, b1, b2, b3])) rest := by
  have count : (b0 :: b1 :: b2 :: b3 :: rest).length / 4 = rest.length / 4 + 1 :=
    Nat.add_div_right rest.length (by decide : 0 < 4)
  have later (b : Nat) : Reference.memRead (b0 :: b1 :: b2 :: b3 :: rest) (4 * (b + 1)) 4 =
      Reference.memRead rest (4 * b) 4 := by
    rw [Nat.mul_succ, Nat.add_comm]
    exact (memRead_drop (b0 :: b1 :: b2 :: b3 :: rest) 4 (4 * b) 4).symm
  rw [littleEndian_four_eq_memRead b0 b1 b2 b3 rest, foldBlocks, count, List.range_succ_eq_map,
    List.foldl_cons, List.foldl_map, foldBlocks]
  simp only [Nat.succ_eq_add_one, later]

theorem foldInput_eq_tail_foldBlocks_of_short (block : Word → Word → Word)
    (tail : Word → List Byte → Word) (h : Word) {data : List Byte} (hl : data.length < 4) :
    foldInput block tail h data =
      tail (foldBlocks block h data) (data.drop (4 * (data.length / 4))) := by
  have count : data.length / 4 = 0 := Nat.div_eq_of_lt hl
  rw [foldInput_short block tail h hl, foldBlocks, count]; rfl

/-- The input walk is the fold over the whole blocks, then the tail on the bytes after them. -/
theorem foldInput_eq_tail_foldBlocks (block : Word → Word → Word) (tail : Word → List Byte → Word) :
    ∀ (h : Word) (data : List Byte), foldInput block tail h data =
      tail (foldBlocks block h data) (data.drop (4 * (data.length / 4)))
  | h, [] | h, [_] | h, [_, _] | h, [_, _, _] =>
    foldInput_eq_tail_foldBlocks_of_short block tail h (by simp)
  | h, b0 :: b1 :: b2 :: b3 :: rest => by
    have count : 4 * ((b0 :: b1 :: b2 :: b3 :: rest).length / 4) = 4 * (rest.length / 4) + 4 := by
      simp only [List.length_cons]; omega
    rw [foldInput_block, foldInput_eq_tail_foldBlocks block tail _ rest, foldBlocks_block, count]
    rfl

/-- A block that agrees with a block on numbers gives the same fold on numbers. -/
theorem toNat_foldBlocks {block : Word → Word → Word} {natBlock : Nat → Nat → Nat}
    (hblock : ∀ h k, (block h k).toNat = natBlock h.toNat k.toNat) (h : Word) (data : List Byte) :
    (foldBlocks block h data).toNat = (List.range (data.length / 4)).foldl
      (fun h b => natBlock h (Reference.memRead data (4 * b) 4)) h.toNat := by
  refine (List.foldl_hom BitVec.toNat fun x b => ?_).symm
  rw [hblock, toNat_literal _ (memRead_four_lt data (4 * b))]

theorem length_tail_lt (data : List Byte) : (data.drop (4 * (data.length / 4))).length < 4 := by
  rw [List.length_drop]; omega

/-! ## The block and the tail (R81, R82) -/

theorem toNat_m2M : m2M.toNat = 0x5bd1e995 := rfl

theorem toNat_m2Block (h k : Word) :
    (m2Block h k).toNat = Reference.m2Block h.toNat k.toNat := by
  simp only [m2Block, Reference.m2Block, BitVec.toNat_xor, toNat_shr, toNat_mul_wrap, toNat_m2M]

theorem toNat_m2Pair (b0 b1 : Byte) :
    (m2Pair b0 b1).toNat = b0.toNat ||| Reference.shl b1.toNat 8 := by
  rw [m2Pair, BitVec.toNat_or, toNat_shl, toNat_zext32, toNat_zext32]

theorem toNat_m2Tail3Bytes (tail3 : M2Tail3) (h : Word) (b0 b1 b2 : Byte) :
    (m2Tail3Bytes tail3 h b0 b1 b2).toNat =
      Reference.m2Tail tail3 h.toNat [b0, b1, b2] 0 3 := by
  cases tail3 <;>
    simp only [m2Tail3Bytes, toNat_mul_wrap, BitVec.toNat_xor, toNat_shl, toNat_zext32, toNat_m2Pair,
      toNat_m2M] <;>
    simp [Reference.m2Tail, Reference.byteAt]

/-- The tail on at most three bytes, which stand at offset 0. -/
theorem toNat_m2Tail (tail3 : M2Tail3) (h : Word) : ∀ {rest : List Byte}, rest.length < 4 →
    (m2Tail tail3 h rest).toNat = Reference.m2Tail tail3 h.toNat rest 0 rest.length
  | [], _ => rfl
  | [b0], _ => by
    rw [m2Tail, toNat_mul_wrap, BitVec.toNat_xor, toNat_zext32, toNat_m2M]
    simp [Reference.m2Tail, Reference.byteAt]
  | [b0, b1], _ => by
    rw [m2Tail, toNat_mul_wrap, BitVec.toNat_xor, toNat_m2Pair, toNat_m2M]
    simp [Reference.m2Tail, Reference.byteAt]
  | [b0, b1, b2], _ => toNat_m2Tail3Bytes tail3 h b0 b1 b2
  | _ :: _ :: _ :: _ :: _, hl => by simp only [List.length_cons] at hl; omega

theorem reference_m2Tail_drop (tail3 : M2Tail3) (h : Nat) (data : List Byte) (t r : Nat) :
    Reference.m2Tail tail3 h (data.drop t) 0 r = Reference.m2Tail tail3 h data t r := by
  simp only [Reference.m2Tail, byteAt_drop, Nat.zero_add, Nat.add_zero]

/-- R82: only a 3-byte tail reads M2_TAIL3. -/
theorem m2Tail_double_eq_single (h : Word) :
    ∀ {rest : List Byte}, rest.length ≠ 3 → m2Tail .double h rest = m2Tail .single h rest
  | [], _ => rfl
  | [_], _ => rfl
  | [_, _], _ => rfl
  | [_, _, _], hl => absurd rfl hl
  | _ :: _ :: _ :: _ :: _, _ => rfl

/-! ## The hash (R83) -/

theorem murmur2_nil (tail3 : M2Tail3) (seed : Word) : murmur2 tail3 seed [] = 0#32 := rfl

theorem murmur2_of_ne_nil (tail3 : M2Tail3) (seed : Word) {data : List Byte} (h : data ≠ []) :
    murmur2 tail3 seed data = mixFinalMurmur2
      (m2Tail tail3 (foldBlocks m2Block (seed ^^^ lengthWord data) data)
        (data.drop (4 * (data.length / 4)))) := by
  rw [murmur2, if_neg (by simpa using h), foldInput_eq_tail_foldBlocks]

theorem toNat_murmur2 (tail3 : M2Tail3) (seed : Word) (data : List Byte) :
    (murmur2 tail3 seed data).toNat = Reference.murmur2 tail3 seed.toNat data := by
  by_cases hnil : data = []
  · subst hnil; rfl
  · have start : (seed ^^^ lengthWord data).toNat = seed.toNat ^^^ Reference.wrap data.length := by
      rw [BitVec.toNat_xor, lengthWord, BitVec.toNat_ofNat]; rfl
    rw [murmur2_of_ne_nil tail3 seed hnil, toNat_mixFinalMurmur2,
      toNat_m2Tail tail3 _ (length_tail_lt data), reference_m2Tail_drop, List.length_drop,
      toNat_foldBlocks toNat_m2Block, start, Reference.murmur2,
      if_neg (mt List.length_eq_zero_iff.1 hnil)]

/-! ## The commands (R84, R85) -/

theorem exec_m2h (s : State) :
    exec .m2h s = hashCommand (murmur2 params.m2Tail3 hashDefaultSeed) s := rfl

/-! ## The obligations -/

/-- Settles O35. -/
theorem murmur2FollowsPseudocode : Obligations.Murmur2FollowsPseudocode :=
  fun tail3 seed data => eq_ofNat_of_toNat (toNat_murmur2 tail3 seed data)

/-- Settles O36: the bytes of the input, hashed as O35 says. -/
theorem m2HResult : Obligations.M2HResult := by
  intro s data h
  have present := inputBuffer_of_inputIs h
  have plain := murmur2FollowsPseudocode params.m2Tail3 hashDefaultSeed data
  rw [exec_m2h, exec_m2hS, hashCommand_present _ present, hashCommand_present _ present, plain,
    murmur2FollowsPseudocode]
  exact ⟨rfl, rfl⟩

/-- Settles O38: the bytes after the blocks are `length mod 4` many. -/
theorem tailParameterMattersOnlyForThreeByteTails :
    Obligations.TailParameterMattersOnlyForThreeByteTails := by
  intro seed data hmod
  by_cases hnil : data = []
  · rw [hnil, murmur2_nil, murmur2_nil]
  · have tail : (data.drop (4 * (data.length / 4))).length ≠ 3 := by
      rw [List.length_drop]; omega
    rw [murmur2_of_ne_nil .double seed hnil, murmur2_of_ne_nil .single seed hnil,
      m2Tail_double_eq_single _ tail]

/-- Settles O37. -/
theorem m2HEmptyInputIsZero : Obligations.M2HEmptyInputIsZero := by
  refine fun s => ⟨fun hv hl => ?_, fun hv => ⟨hashCommand_absent _ hv, hashCommand_absent _ hv⟩⟩
  have present := inputBuffer_of_inputIs (inputIs_nil hv hl)
  rw [exec_m2h, exec_m2hS, hashCommand_present _ present, hashCommand_present _ present, murmur2_nil,
    murmur2_nil]
  exact ⟨rfl, rfl⟩

end Sys2Proof.Machine

/-! Proofs about MurmurHash3 (42_murmur3.md): the block and the tail against the spec's pseudocode (R88 to
R90), the hash (R91), and the commands M3H and M3H.S (R92 to R95). The input walk is the one of the proofs
about MurmurHash2. -/

namespace Sys2Proof.Machine

/-! ## The block and the tail (R89, R90) -/

theorem toNat_m3C1 : m3C1.toNat = 0xcc9e2d51 := rfl

theorem toNat_m3C2 : m3C2.toNat = 0x1b873593 := rfl

theorem toNat_m3Scramble (k1 : Word) :
    (m3Scramble k1).toNat =
      Reference.wrap (Reference.rotl (Reference.wrap (k1.toNat * 0xcc9e2d51)) 15 * 0x1b873593) := by
  rw [m3Scramble, toNat_mul_wrap, toNat_rotl32 _ (by decide) (by decide), toNat_mul_wrap, toNat_m3C1,
    toNat_m3C2]

/-- R11: a sum reduced modulo 2^32 may have a summand reduced before. -/
theorem wrap_wrap_add (x y : Nat) : Reference.wrap (Reference.wrap x + y) = Reference.wrap (x + y) :=
  Nat.mod_add_mod x 4294967296 y

theorem toNat_m3Block (h1 k1 : Word) :
    (m3Block h1 k1).toNat = Reference.m3Block h1.toNat k1.toNat := by
  have scale := toNat_literal 5 (by norm_num)
  have offset := toNat_literal 0xe6546b64 (by norm_num)
  rw [m3Block, toNat_add_wrap, toNat_mul_wrap, toNat_rotl32 _ (by decide) (by decide), BitVec.toNat_xor,
    toNat_m3Scramble, scale, offset, wrap_wrap_add, Reference.m3Block]

/-- The tail on at most three bytes, which stand at offset 0. -/
theorem toNat_m3Tail (h1 : Word) : ∀ {rest : List Byte}, rest.length < 4 →
    (m3Tail h1 rest).toNat = Reference.m3Tail h1.toNat rest 0 rest.length
  | [], _ => rfl
  | [b0], _ => by
    rw [m3Tail, BitVec.toNat_xor, toNat_m3Scramble, toNat_zext32]
    simp [Reference.m3Tail, Reference.byteAt]
  | [b0, b1], _ => by
    rw [m3Tail, BitVec.toNat_xor, toNat_m3Scramble, BitVec.toNat_xor, toNat_shl, toNat_zext32,
      toNat_zext32]
    simp [Reference.m3Tail, Reference.byteAt]
  | [b0, b1, b2], _ => by
    rw [m3Tail, BitVec.toNat_xor, toNat_m3Scramble, BitVec.toNat_xor, BitVec.toNat_xor, toNat_shl,
      toNat_shl, toNat_zext32, toNat_zext32, toNat_zext32]
    simp [Reference.m3Tail, Reference.byteAt]
  | _ :: _ :: _ :: _ :: _, hl => by simp only [List.length_cons] at hl; omega

theorem reference_m3Tail_drop (h1 : Nat) (data : List Byte) (t r : Nat) :
    Reference.m3Tail h1 (data.drop t) 0 r = Reference.m3Tail h1 data t r := by
  simp only [Reference.m3Tail, byteAt_drop, Nat.zero_add, Nat.add_zero]

/-! ## The hash (R91) -/

theorem toNat_m3H1 (init : M3H1Init) (seed : Word) :
    (m3H1 init seed).toNat = if init = .seed then seed.toNat else 0 := by
  cases init <;> rfl

theorem toNat_lengthWord (data : List Byte) : (lengthWord data).toNat = Reference.wrap data.length :=
  BitVec.toNat_ofNat data.length 32

theorem toNat_murmur3 (init : M3H1Init) (seed : Word) (data : List Byte) :
    (murmur3 init seed data).toNat = Reference.murmur3 init seed.toNat data := by
  have tailLength : (data.drop (4 * (data.length / 4))).length = data.length % 4 := by
    rw [List.length_drop]; omega
  rw [murmur3, toNat_mixFinalMurmur3, BitVec.toNat_xor, foldInput_eq_tail_foldBlocks,
    toNat_m3Tail _ (length_tail_lt data), reference_m3Tail_drop, tailLength,
    toNat_foldBlocks toNat_m3Block, toNat_m3H1, toNat_lengthWord, Reference.murmur3]

/-- R94: under M3_H1_INIT = zero no step of the hash reads the seed. -/
theorem murmur3_zero_congr_seed (s1 s2 : Word) (data : List Byte) :
    murmur3 .zero s1 data = murmur3 .zero s2 data := rfl

theorem murmur3_zero_nil (seed : Word) : murmur3 .zero seed [] = 0#32 := by
  rw [murmur3_zero_congr_seed seed 0#32]; decide

/-! ## The commands (R92, R93) -/

theorem exec_m3h (s : State) :
    exec .m3h s = hashCommand (murmur3 params.m3H1Init hashDefaultSeed) s := rfl

/-- R94: under M3_H1_INIT = zero both commands hash alike. -/
theorem exec_m3hS_eq_exec_m3h (hz : params.m3H1Init = .zero) (s : State) :
    exec .m3hS s = exec .m3h s := by
  have same : murmur3 .zero s.seed = murmur3 .zero hashDefaultSeed :=
    funext (murmur3_zero_congr_seed s.seed hashDefaultSeed)
  rw [exec_m3hS, exec_m3h, hz, same]

/-- R95: the empty buffer is hashed like any other (R92), and gives 0 under M3_H1_INIT = zero. -/
theorem exec_m3h_empty (hz : params.m3H1Init = .zero) {s : State}
    (hv : s.bufCtrl.getLsbD 0 = true) (hl : s.bufLen = 0#32) :
    exec .m3h s = .next (succeed 0#32 s) := by
  rw [exec_m3h, hashCommand_present _ (inputBuffer_of_inputIs (inputIs_nil hv hl)), hz,
    murmur3_zero_nil]

/-! ## The obligations -/

/-- Settles O39. -/
theorem murmur3FollowsPseudocode : Obligations.Murmur3FollowsPseudocode :=
  fun init seed data => eq_ofNat_of_toNat (toNat_murmur3 init seed data)

/-- Settles O40: the bytes of the input, hashed as O39 says. -/
theorem m3HResult : Obligations.M3HResult := by
  intro s data h
  have present := inputBuffer_of_inputIs h
  have plain := murmur3FollowsPseudocode params.m3H1Init hashDefaultSeed data
  rw [exec_m3h, exec_m3hS, hashCommand_present _ present, hashCommand_present _ present, plain,
    murmur3FollowsPseudocode]
  exact ⟨rfl, rfl⟩

/-- Settles O41: the seed's absence under `zero` carries M3H's outcomes over to M3H.S. -/
theorem m3HSeedAndEmptyInput : Obligations.M3HSeedAndEmptyInput := by
  refine ⟨murmur3_zero_congr_seed, exec_m3hS_eq_exec_m3h, fun hz s hv hl => ?_, murmur3_zero_nil,
    by decide, fun s hv => ⟨hashCommand_absent _ hv, hashCommand_absent _ hv⟩⟩
  rw [exec_m3hS_eq_exec_m3h hz s]
  exact ⟨exec_m3h_empty hz hv hl, exec_m3h_empty hz hv hl⟩

end Sys2Proof.Machine

/-! Proofs about the hash combiner (43_combiner.md): its rounds and its finaliser against the spec's
pseudocode (R98 to R101), the queue and the three paths (R102 to R104), the commands COMB and COMB.S
(R105, R106), and the signed reading of a result (R107). -/

namespace Sys2Proof.Machine

/-! ## The constants (R96) -/

theorem toNat_prime1 : prime1.toNat = 2654435761 := rfl

theorem toNat_prime2 : prime2.toNat = 2246822519 := rfl

theorem toNat_prime3 : prime3.toNat = 3266489917 := rfl

theorem toNat_prime4 : prime4.toNat = 668265263 := rfl

theorem toNat_prime5 : prime5.toNat = 374761393 := rfl

/-! ## The rounds and the finaliser (R98 to R101) -/

/-- R11: a sum reduced modulo 2^32 may have its second summand reduced before. -/
theorem wrap_add_wrap (x y : Nat) : Reference.wrap (x + Reference.wrap y) = Reference.wrap (x + y) :=
  Nat.add_mod_mod x y 4294967296

theorem toNat_queueRound (hash hc : Word) :
    (queueRound hash hc).toNat = Reference.queueRound hash.toNat hc.toNat := by
  rw [queueRound, toNat_mul_wrap, toNat_rotl32 _ (by decide) (by decide), toNat_add_wrap,
    toNat_mul_wrap, wrap_add_wrap, toNat_prime3, toNat_prime4, Reference.queueRound]

theorem toNat_laneRound (v hc : Word) :
    (laneRound v hc).toNat = Reference.round v.toNat hc.toNat := by
  rw [laneRound, toNat_mul_wrap, toNat_rotl32 _ (by decide) (by decide), toNat_add_wrap,
    toNat_mul_wrap, wrap_add_wrap, toNat_prime1, toNat_prime2, Reference.round]

theorem toNat_add_add_add_wrap (a b c d : Word) :
    (a + b + c + d).toNat = Reference.wrap (a.toNat + b.toNat + c.toNat + d.toNat) := by
  rw [toNat_add_wrap, toNat_add_wrap, wrap_wrap_add, toNat_add_wrap, Nat.add_assoc, wrap_wrap_add,
    ← Nat.add_assoc]

theorem toNat_mixState (l : Lanes) : (mixState l).toNat =
    Reference.mixState l.v1.toNat l.v2.toNat l.v3.toNat l.v4.toNat := by
  rw [mixState, toNat_add_add_add_wrap, toNat_rotl32 _ (by decide) (by decide),
    toNat_rotl32 _ (by decide) (by decide), toNat_rotl32 _ (by decide) (by decide),
    toNat_rotl32 _ (by decide) (by decide), Reference.mixState]

theorem toNat_combMixFinal (hash : Word) :
    (combMixFinal hash).toNat = Reference.mixFinal hash.toNat := by
  simp only [combMixFinal, Reference.mixFinal, BitVec.toNat_xor, toNat_shr, toNat_mul_wrap,
    toNat_prime2, toNat_prime3]

theorem toNat_lengthTerm {n : Nat} (hn : n ≤ 8) : (lengthTerm n).toNat = 4 * n :=
  toNat_literal (4 * n) (by omega)

/-! ## The lanes (R103, R104) -/

theorem toNat_lanesInit_v1 (seed : Word) :
    (lanesInit seed).v1.toNat = Reference.wrap (seed.toNat + 2654435761 + 2246822519) := by
  rw [lanesInit, toNat_add_wrap, toNat_add_wrap, wrap_wrap_add, toNat_prime1, toNat_prime2]

theorem toNat_lanesInit_v2 (seed : Word) :
    (lanesInit seed).v2.toNat = Reference.wrap (seed.toNat + 2246822519) := by
  rw [lanesInit, toNat_add_wrap, toNat_prime2]

theorem lanesInit_v3 (seed : Word) : (lanesInit seed).v3 = seed := rfl

theorem toNat_lanesInit_v4 (seed : Word) :
    (lanesInit seed).v4.toNat = Reference.wrap (seed.toNat + (4294967296 - 2654435761)) := by
  rw [lanesInit, BitVec.toNat_sub, toNat_prime1, Nat.add_comm, Reference.wrap]

theorem toNat_lanesPass_v1 (l : Lanes) (h1 h2 h3 h4 : Word) :
    (lanesPass l h1 h2 h3 h4).v1.toNat = Reference.round l.v1.toNat h1.toNat :=
  toNat_laneRound l.v1 h1

theorem toNat_lanesPass_v2 (l : Lanes) (h1 h2 h3 h4 : Word) :
    (lanesPass l h1 h2 h3 h4).v2.toNat = Reference.round l.v2.toNat h2.toNat :=
  toNat_laneRound l.v2 h2

theorem toNat_lanesPass_v3 (l : Lanes) (h1 h2 h3 h4 : Word) :
    (lanesPass l h1 h2 h3 h4).v3.toNat = Reference.round l.v3.toNat h3.toNat :=
  toNat_laneRound l.v3 h3

theorem toNat_lanesPass_v4 (l : Lanes) (h1 h2 h3 h4 : Word) :
    (lanesPass l h1 h2 h3 h4).v4.toNat = Reference.round l.v4.toNat h4.toNat :=
  toNat_laneRound l.v4 h4

/-! ## The queue (R102, R103) -/

/-- The offsets that `queueFold` lets through are the spec's loop indices, which count from 1. -/
theorem map_succ_filter_offsets : ∀ lo ≤ 8, ∀ n ≤ 8,
    (([0, 1, 2, 3, 4, 5, 6, 7] : List (Fin 8)).filter
      fun k => decide (lo ≤ k.val ∧ k.val < n)).map (fun k => k.val + 1) =
      List.range' (lo + 1) (n + 1 - (lo + 1)) := by
  decide

section
variable {hc : Fin 8 → Word} {hcNat : Nat → Nat}
  (h : ∀ k : Fin 8, (hc k).toNat = hcNat (k.val + 1))
include h

theorem toNat_queueFold {lo n : Nat} (hlo : lo ≤ 8) (hn : n ≤ 8) (hash : Word) :
    (queueFold lo n hc hash).toNat = Reference.queueAll (lo + 1) n hcNat hash.toNat := by
  rw [Reference.queueAll, ← map_succ_filter_offsets lo hlo n hn, List.foldl_map, List.foldl_filter,
    queueFold]
  refine (List.foldl_hom BitVec.toNat fun acc k => ?_).symm
  by_cases hk : lo ≤ k.val ∧ k.val < n
  · rw [if_pos (decide_eq_true hk), if_pos hk, toNat_queueRound, h k]
  · rw [if_neg (mt of_decide_eq_true hk), if_neg hk]

/-! ## The three paths (R102 to R104) -/

theorem toNat_combineFew (seed : Word) {n : Nat} (hn : n ≤ 3) :
    (combineFew seed n hc).toNat = Reference.combine seed.toNat n hcNat := by
  rw [combineFew, toNat_combMixFinal, toNat_queueFold h (by omega) (by omega), toNat_add_wrap,
    toNat_add_wrap, toNat_prime5, toNat_lengthTerm (by omega), Reference.combine, if_pos hn]

theorem toNat_components : (hc 0).toNat = hcNat 1 ∧ (hc 1).toNat = hcNat 2 ∧
    (hc 2).toNat = hcNat 3 ∧ (hc 3).toNat = hcNat 4 ∧ (hc 4).toNat = hcNat 5 ∧
    (hc 5).toNat = hcNat 6 ∧ (hc 6).toNat = hcNat 7 ∧ (hc 7).toNat = hcNat 8 :=
  ⟨h 0, h 1, h 2, h 3, h 4, h 5, h 6, h 7⟩

theorem toNat_combineLanes (seed : Word) {n : Nat} (hlo : ¬ n ≤ 3) (hhi : n ≤ 7) :
    (combineLanes seed n hc).toNat = Reference.combine seed.toNat n hcNat := by
  obtain ⟨h1, h2, h3, h4, -⟩ := toNat_components h
  rw [combineLanes, toNat_combMixFinal, toNat_queueFold h (by omega) (by omega), toNat_add_wrap,
    toNat_lengthTerm (by omega), toNat_mixState, toNat_lanesPass_v1, toNat_lanesPass_v2,
    toNat_lanesPass_v3, toNat_lanesPass_v4, toNat_lanesInit_v1, toNat_lanesInit_v2, lanesInit_v3,
    toNat_lanesInit_v4, h1, h2, h3, h4, Reference.combine, if_neg hlo, if_pos hhi]

theorem toNat_combineEight (seed : Word) :
    (combineEight seed hc).toNat = Reference.combine seed.toNat 8 hcNat := by
  obtain ⟨h1, h2, h3, h4, h5, h6, h7, h8⟩ := toNat_components h
  have length : (lengthTerm 8).toNat = 32 := toNat_lengthTerm le_rfl
  rw [combineEight, toNat_combMixFinal, toNat_add_wrap, length, toNat_mixState]
  simp only [toNat_lanesPass_v1, toNat_lanesPass_v2, toNat_lanesPass_v3, toNat_lanesPass_v4]
  rw [toNat_lanesInit_v1, toNat_lanesInit_v2, lanesInit_v3, toNat_lanesInit_v4, h1, h2, h3, h4, h5,
    h6, h7, h8, Reference.combine, if_neg (by decide), if_neg (by decide)]

/-- Each arity of 1..8 takes the same path in the model and in the pseudocode (R105). -/
theorem toNat_combine (seed : Word) {n : Nat} (hn : n ≤ 8) :
    (combine seed n hc).toNat = Reference.combine seed.toNat n hcNat := by
  by_cases hfew : n ≤ 3
  · rw [combine, if_pos hfew, toNat_combineFew h seed hfew]
  · by_cases hlanes : n ≤ 7
    · rw [combine, if_neg hfew, if_pos hlanes, toNat_combineLanes h seed hfew hlanes]
    · obtain rfl : n = 8 := by omega
      rw [combine, if_neg hfew, if_neg hlanes, toNat_combineEight h]

end

/-! ## The commands (R97, R105, R106) -/

theorem toNat_componentHash (s : State) (absent : BitVec 8) (k : Fin 8) :
    (componentHash s absent k).toNat = componentNat s absent (k.val + 1) := by
  rw [componentHash, componentNat, Nat.add_sub_cancel]
  split
  · rfl
  · simp [List.getD_eq_getElem?_getD]

theorem toNat_combDefaultSeed : combDefaultSeed.toNat = 0 := rfl

theorem exec_comb (n : Nat) (absent : BitVec 8) (s : State) :
    exec (.comb n absent) s = combCommand combDefaultSeed n absent s := rfl

/-- Both forms complete with the pseudocode's value at their seed. -/
theorem combCommand_eq_reference {n : Nat} (hlo : 1 ≤ n) (hhi : n ≤ 8) (seed : Word)
    (absent : BitVec 8) (s : State) : combCommand seed n absent s = .next (succeed
      (BitVec.ofNat 32 (Reference.combine seed.toNat n (componentNat s absent))) s) := by
  rw [combCommand_of_arityOk (arityOk_iff.2 ⟨hlo, hhi⟩),
    eq_ofNat_of_toNat (toNat_combine (toNat_componentHash s absent) seed hhi)]

/-! ## The signed reading (R107) -/

theorem signed32_eq_toInt (v : Word) : signed32 v = v.toInt := by
  rw [BitVec.toInt_eq_msb_cond, BitVec.msb_eq_getLsbD_last]; rfl

/-! ## The obligations -/

/-- Settles O42. -/
theorem combinerResult : Obligations.CombinerResult := by
  intro s n absent hlo hhi
  rw [exec_comb, exec_combS, combCommand_eq_reference hlo hhi combDefaultSeed,
    combCommand_eq_reference hlo hhi s.seed, toNat_combDefaultSeed]
  exact ⟨rfl, rfl⟩

/-- Settles O44. -/
theorem signedResultKeepsThePattern : Obligations.SignedResultKeepsThePattern := by
  intro v
  rw [signed32_eq_toInt]
  exact ⟨rfl, BitVec.le_toInt v, Int.le_of_lt_add_one BitVec.toInt_lt, BitVec.ofInt_toInt⟩

end Sys2Proof.Machine

/-! Proofs about errors (60_exceptions.md): what clears ERRSEEN (R22, R122) and what a run shows by it, the
completion of a ready command (R113), and the two errors in their order (R109, R112, R114). -/

namespace Sys2Proof.Machine

/-! ## The effect of a completion (R112, R113) -/

theorem successEffect_succeed (v : Word) (s : State) : SuccessEffect v s (succeed v s) :=
  ⟨rfl, by simp, by simp, by simp, by simp, by simp, operandsKept_succeed v s⟩

theorem errorEffect_raise (e : ErrorKind) (s : State) : ErrorEffect e.ecode s (raise e s) :=
  ⟨rfl, by simp, by simp, by simp, by simp, by simp, operandsKept_raise e s⟩

/-! ## Ready commands (R74, R109, R113) -/

theorem exec_of_absent {i : Instr} {s : State} (hi : isHash i = true) (hv : bufValid s = false) :
    exec i s = .next (raise .nullInput s) := by
  obtain ⟨f, hf⟩ := exists_exec_eq_hashCommand hi s
  rw [hf, hashCommand_absent f hv]

theorem exec_of_present {i : Instr} {s : State} {data : List Byte} (hi : isHash i = true)
    (hb : inputBuffer s = .present data) : ∃ v, exec i s = .next (succeed v s) := by
  obtain ⟨f, hf⟩ := exists_exec_eq_hashCommand hi s
  exact ⟨f data, by rw [hf, hashCommand_present f hb]⟩

/-- A rotate that ROTL_OOB lets through gives the masked rotation (R74). -/
theorem exec_rotl32_of_ready {s : State}
    (h : params.rotlOob = .mask ∨ rotateCountInRange s.opb = true) :
    exec .rotl32 s = .next (succeed (rotl32 s.opa s.opb) s) := by
  rcases h with hmask | hin
  · exact exec_rotl32_of_mask hmask s
  · exact rotateCommand_of_inRange params.rotlOob hin

/-- A ready command with nothing to complain of completes with a value. -/
theorem exists_exec_eq_succeed {i : Instr} {s : State} (h : commandReady i s)
    (hv : isHash i = true → bufValid s = true) : ∃ v, exec i s = .next (succeed v s) := by
  obtain ⟨hwf, hwritten, hcount⟩ := h
  by_cases hi : isHash i = true
  · obtain ⟨data, present⟩ := exists_inputBuffer_present (hv hi) (hwritten hi (hv hi))
    exact exec_of_present hi present
  · cases i with
    | rotl32 => exact ⟨_, exec_rotl32_of_ready (hcount rfl)⟩
    | mix2 => exact ⟨_, exec_mix2 s⟩
    | mix3 => exact ⟨_, exec_mix3 s⟩
    | comb n absent => exact ⟨_, combCommand_of_arityOk hwf combDefaultSeed absent s⟩
    | combS n absent => exact ⟨_, combCommand_of_arityOk hwf s.seed absent s⟩
    | _ => exact absurd rfl hi

/-- A ready command goes on: it completes with a value or, on an absent buffer, with NullInput. -/
theorem exists_exec_eq_next {i : Instr} {s : State} (h : commandReady i s) :
    ∃ t, exec i s = .next t := by
  by_cases absent : isHash i = true ∧ bufValid s = false
  · exact ⟨_, exec_of_absent absent.left absent.right⟩
  · obtain ⟨v, hv⟩ := exists_exec_eq_succeed h (by simpa using absent)
    exact ⟨_, hv⟩

/-- A CMD write goes on when its word is illegal or its command is ready. -/
theorem exists_runCommand_eq_next {w : Word} {s : State}
    (h : ∀ i, decode w = .command i → commandReady i s) : ∃ t, runCommand w s = .next t := by
  cases hd : decode w with
  | command i => rw [runCommand_of_decode hd]; exact exists_exec_eq_next (h i hd)
  | illegal why => exact ⟨_, runCommand_of_illegal hd s⟩

/-- In a legal state an access by name goes on, if the command it writes is ready. -/
theorem State.Legal.exists_perform_eq_next {s : State} (hs : s.Legal) {a : HostAccess}
    (hbus : a.isBus = false)
    (hready : ∀ w i, a = .write .cmd w → decode w = .command i → commandReady i s) :
    ∃ t, perform a s = .next t := by
  cases a with
  | read r => exact ⟨_, hs.hostRead_eq r⟩
  | write r w =>
    by_cases hr : r = .cmd
    · subst hr
      rw [perform_write_cmd]
      exact exists_runCommand_eq_next fun i hd => hready w i rfl hd
    · exact ⟨_, hostWrite_of_ne_cmd hr w s⟩
  | writeByte off b => exact ⟨_, rfl⟩
  | reset => exact ⟨_, rfl⟩
  | busRead addr width => cases hbus
  | busWrite addr bytes => cases hbus

/-! ## ERRSEEN and ERR over one access (R22, R122) -/

theorem writeReg_status_of_ne {r : Reg} (h : r ≠ .status) (w : Word) (s : State) :
    (writeReg r w s).status = s.status :=
  readReg_writeReg_of_ne (Ne.symm h) w s

theorem AccessEffect.keeps_errSeen {a : HostAccess} {s t : State} (he : AccessEffect a s t)
    (hclear : ¬ a.clearsErrSeen) (hs : statusErrSeen s.status = true) :
    statusErrSeen t.status = true := by
  cases he with
  | read r _ => exact hs
  | write r w ha _ =>
    by_cases hr : r = .status
    · subst hr
      have bit2 : w.getLsbD 2 = false := by
        rw [← Bool.not_eq_true]
        exact fun h => hclear (.inr ⟨w, ha, h⟩)
      rw [writeReg_status, statusErrSeen_onWrite, hs, bit2]
      rfl
    · rwa [writeReg_status_of_ne hr]
  | success w v _ => simpa using hs
  | error w e _ => simp
  | byte off b _ => exact hs
  | reset ha => exact absurd (.inl ha) hclear

/-- An access after which ERRSEEN is 0 did not end with an error, so it set no ERR. -/
theorem AccessEffect.err_of_not_errSeen {a : HostAccess} {s t : State} (he : AccessEffect a s t)
    (hseen : statusErrSeen t.status = false) (herr : statusErr t.status = true) :
    ¬ a.isCommand ∧ statusErr s.status = true := by
  have noCommand : ¬ a.isCommand := fun ha => by
    obtain ⟨w, ⟨v, rfl⟩ | ⟨e, rfl⟩⟩ := he.of_isCommand ha
    · simp at herr
    · simp at hseen
  refine ⟨noCommand, ?_⟩
  cases he with
  | read r _ => exact herr
  | write r w _ _ =>
    by_cases hr : r = .status
    · subst hr; simpa using herr
    · rwa [writeReg_status_of_ne hr] at herr
  | success w v ha => exact absurd ⟨w, ha⟩ noCommand
  | error w e ha => exact absurd ⟨w, ha⟩ noCommand
  | byte off b _ => exact herr
  | reset _ => exact absurd herr (by rw [resetBlock_status]; decide)

/-! ## ERRSEEN over a step and over a run (R122) -/

theorem step_keeps_errSeen {s t : State} (h : step s = .next t)
    (hclear : ∀ a ∈ s.pending.head?, ¬ a.clearsErrSeen) (hs : statusErrSeen s.status = true) :
    statusErrSeen t.status = true := by
  rcases step_next h with ⟨-, rfl⟩ | ⟨a, rest, hp, he⟩
  · exact hs
  · exact he.keeps_errSeen (hclear a (by simp [hp])) hs

theorem runsTo_keeps_errSeen {k : Nat} {s t : State} (h : runsTo k s t)
    (hclear : ∀ a ∈ s.pending.take k, ¬ a.clearsErrSeen) (hs : statusErrSeen s.status = true) :
    statusErrSeen t.status = true := by
  induction k generalizing s with
  | zero => rwa [← (runsTo_zero s t).1 h]
  | succ k ih =>
    obtain ⟨u, hu, h⟩ := (runsTo_succ k s t).1 h
    have first : ∀ a ∈ s.pending.head?, ¬ a.clearsErrSeen := fun a ha =>
      hclear a (List.mem_of_mem_head? (by rwa [List.head?_take, if_neg k.succ_ne_zero]))
    have others : ∀ a ∈ u.pending.take k, ¬ a.clearsErrSeen := fun a ha => by
      rw [step_pending hu] at ha
      exact hclear a (List.mem_of_mem_tail (by rwa [List.tail_take_eq_take_tail]))
    exact ih h others (step_keeps_errSeen hu first hs)

theorem runsTo_pending {k : Nat} {s t : State} (h : runsTo k s t) :
    t.pending = s.pending.drop k := by
  induction k generalizing s with
  | zero => rw [(runsTo_zero s t).1 h, List.drop_zero]
  | succ k ih =>
    obtain ⟨u, hu, h⟩ := (runsTo_succ k s t).1 h
    rw [ih h, step_pending hu, List.drop_tail]

/-- The rest of a run, from a state on its way. -/
theorem runsTo_rest {j m : Nat} {s u t : State} (hu : runsTo j s u) (ht : runsTo (j + m) s t) :
    runsTo m u t := by
  induction j generalizing s with
  | zero => rwa [Nat.zero_add, (runsTo_zero s u).1 hu] at ht
  | succ j ih =>
    obtain ⟨v, hv, hu⟩ := (runsTo_succ j s u).1 hu
    rw [Nat.succ_add] at ht
    obtain ⟨v', hv', ht⟩ := (runsTo_succ (j + m) s t).1 ht
    rw [hv] at hv'
    cases hv'
    exact ih hu ht

/-- A set ERRSEEN would last to the end of the run. -/
theorem errSeen_false_of_runsTo {k j : Nat} {s u t : State} (ht : runsTo k s t)
    (hclear : ∀ a ∈ s.pending.take k, ¬ a.clearsErrSeen) (hseen : statusErrSeen t.status = false)
    (hj : j ≤ k) (hu : runsTo j s u) : statusErrSeen u.status = false := by
  obtain ⟨m, rfl⟩ := Nat.exists_eq_add_of_le hj
  have remaining : ∀ a ∈ u.pending.take m, ¬ a.clearsErrSeen := fun a ha => hclear a (by
    rw [runsTo_pending hu] at ha
    rw [List.take_add]
    exact List.mem_append_right _ ha)
  rw [← Bool.not_eq_true]
  intro hset
  rw [runsTo_keeps_errSeen (runsTo_rest hu ht) remaining hset] at hseen
  cases hseen

/-! ## The obligations -/

/-- Settles O5. -/
theorem errSeenClearedOnlyByResetOrItsWrite : Obligations.ErrSeenClearedOnlyByResetOrItsWrite := by
  refine ⟨fun w s => ⟨writeReg .status w s, hostWrite_of_ne_cmd (by decide) w s, ?_⟩,
    fun s => by rw [resetBlock_status]; decide, fun _ _ => step_keeps_errSeen⟩
  simp [OperandsKept]

/-- Settles O6: ERRSEEN is 0 before and after each step of the run, so the access of that step ended with
no error. -/
theorem errSeenZeroAtEndMeansNoErrorInRun : Obligations.ErrSeenZeroAtEndMeansNoErrorInRun := by
  intro k s t ht hclear hseen j u hj hu
  refine ⟨errSeen_false_of_runsTo ht hclear hseen hj hu, fun v hjk hv => ?_⟩
  have unseen : statusErrSeen v.status = false :=
    errSeen_false_of_runsTo ht hclear hseen hjk (runsTo_add hu (runsTo_one.2 hv))
  rcases step_next hv with ⟨hp, rfl⟩ | ⟨a, rest, hp, he⟩
  · exact ⟨by simp [hp], id⟩
  · have harmless := he.err_of_not_errSeen unseen
    refine ⟨fun b hb hcmd => ?_, fun herr => (harmless herr).right⟩
    obtain rfl : a = b := by simpa [hp] using hb
    rw [← Bool.not_eq_true]
    exact fun herr => (harmless herr).left hcmd

/-- Settles O13. -/
theorem readyStepCompletes : Obligations.ReadyStepCompletes := by
  intro s hs hready
  cases hp : s.pending with
  | nil => exact ⟨s, step_idle hp⟩
  | cons a rest =>
    obtain ⟨hbus, hcommand⟩ := hready a rest hp
    rw [step_cons hp]
    exact (hs.hostSide rest s.replies).exists_perform_eq_next hbus hcommand

/-- Settles O19. -/
theorem readyCommandSucceeds : Obligations.ReadyCommandSucceeds := by
  intro i s hready hvalid
  obtain ⟨v, hv⟩ := exists_exec_eq_succeed hready hvalid
  exact ⟨v, _, hv, successEffect_succeed v s⟩

/-- Settles O20. -/
theorem errorsArePreciseAndOrdered : Obligations.ErrorsArePreciseAndOrdered := by
  refine fun s w => ⟨fun hd => ?_, fun i hd hi hv => ?_, fun t h => ?_⟩
  · exact ⟨_, runCommand_of_ne_command hd _, errorEffect_raise .illegalCommand _⟩
  · rw [perform_write_cmd, runCommand_of_decode hd]
    exact ⟨_, exec_of_absent hi hv, errorEffect_raise .nullInput _⟩
  · rw [perform_write_cmd] at h
    rcases runCommand_next h with ⟨v, rfl⟩ | ⟨e, rfl⟩
    · exact .inl (by simp)
    · exact .inr (by simpa using e.ecode_cases)

/-- Settles O21: an empty buffer is the input of no bytes, so it is present. -/
theorem nullInputExactlyOnAbsentBuffer : Obligations.NullInputExactlyOnAbsentBuffer := by
  refine ⟨fun i s => exec_of_absent, fun i s t h hi => ?_, fun i s hi hv hl => ?_⟩
  · rcases exec_next h with ⟨v, rfl⟩ | ⟨hash, absent, -⟩
    · simp
    · rcases hi with other | present
      · rw [hash] at other; cases other
      · rw [bufValid, present] at absent; cases absent
  · obtain ⟨v, hv⟩ := exec_of_present hi (inputBuffer_of_inputIs (inputIs_nil hv hl))
    exact ⟨_, hv, by simp⟩

end Sys2Proof.Machine

/-! Proofs about reset and the end of a run (70_reset_and_hazards.md): the registers and BUF after reset
(R123, R125) and a host program that runs to its last access (R127). -/

namespace Sys2Proof.Machine

/-! ## The registers after reset (R123) -/

@[simp] theorem readReg_reset (r : Reg) : readReg State.reset r = 0#32 := by
  cases r with
  | hc k => simp [readReg]
  | _ => rfl

@[simp] theorem readReg_resetBlock (s : State) (r : Reg) : readReg (resetBlock s) r = 0#32 :=
  (readReg_hostSide State.reset s.pending s.replies r).trans (readReg_reset r)

/-- R22's fields of the reset value of STATUS. -/
theorem statusFields_zero : statusDone 0#32 = false ∧ statusErr 0#32 = false ∧
    statusErrSeen 0#32 = false ∧ statusEcode 0#32 = 0#4 := by decide

/-! ## BUF after reset (R46, R125) -/

/-- With no byte written, a present buffer of any bytes has its first byte unwritten. -/
theorem exec_faults_of_buf_empty {i : Instr} {s : State} (hi : isHash i = true) (hbuf : s.buf = [])
    (hvalid : s.bufCtrl.getLsbD 0 = true) (hlen : s.bufLen ≠ 0#32) :
    exec i s = .fault .bufByteUnwritten := by
  have firstInside : 0 < s.bufLen.toNat := by bv_omega
  have firstUnwritten : s.buf.read 0 = none := by rw [hbuf, Memory.read_nil]
  exact (unwrittenInputByteFaults i s hi).2 ⟨hvalid, 0, firstInside, firstUnwritten⟩

/-! ## The end of a run (R127) -/

/-- While every state it reaches is ready, a run goes on, and its states stay legal. -/
theorem State.Legal.exists_runsTo {s : State} (hs : s.Legal)
    (hready : ∀ j u, runsTo j s u → u.ready) (k : Nat) : ∃ t, runsTo k s t ∧ t.Legal := by
  induction k generalizing s with
  | zero => exact ⟨s, (runsTo_zero s s).2 rfl, hs⟩
  | succ k ih =>
    have now : s.ready := hready 0 s ((runsTo_zero s s).2 rfl)
    obtain ⟨u, hu⟩ := readyStepCompletes s hs now
    have later : ∀ j v, runsTo j u v → v.ready := fun j v hv =>
      hready (j + 1) v ((runsTo_succ j s v).2 ⟨u, hu, hv⟩)
    obtain ⟨t, ht, legal⟩ := ih (stepKeepsStateLegal s u hs hu) later
    exact ⟨t, (runsTo_succ k s t).2 ⟨u, hu, ht⟩, legal⟩

/-! ## The obligations -/

/-- Settles O14: each step takes one access off the list (`runsTo_pending`). -/
theorem readyHostProgramRunsToItsEnd : Obligations.ReadyHostProgramRunsToItsEnd := by
  intro s hs hready
  obtain ⟨t, ht, legal⟩ := hs.exists_runsTo hready s.pending.length
  exact ⟨t, ht, by rw [runsTo_pending ht, List.drop_length], legal⟩

/-- Settles O1. -/
theorem resetZeroesEveryRegister : Obligations.ResetZeroesEveryRegister := by
  obtain ⟨done, err, errSeen, ecode⟩ := statusFields_zero
  exact ⟨⟨readReg_reset, done, err, errSeen, ecode⟩,
    fun s => ⟨resetBlock s, rfl, readReg_resetBlock s, done, err, errSeen, ecode, rfl, rfl⟩⟩

/-- Settles O51: reset leaves no byte written, so the first byte of the input is unwritten. -/
theorem resetLeavesNoUsableBufByte : Obligations.ResetLeavesNoUsableBufByte := by
  intro s rest hp
  refine ⟨resetBlock { s with pending := rest }, step_cons hp, rfl, rfl, Memory.read_nil, ?_⟩
  intro i len hi hlen
  exact exec_faults_of_buf_empty hi rfl (by decide : (1#32).getLsbD 0 = true) hlen

end Sys2Proof.Machine
